-- ==== Sys2Proof/Word.lean ====
section
/-! DEFINITION. The word types of the block: a datum of the host bus is 8 bits, an address 7 bits (spec/00_scope.md R8:
DATA_BITS, ADDR_BITS, CHAR_BITS). The wider registers are written `BitVec n` where they stand, each at its own width. -/

namespace Sys2Proof

/-- A byte: a bus datum, a byte of a register, a character (spec/00_scope.md R10, R11). -/
abbrev Byte := BitVec 8

/-- An address of the register space, `0x00` to `0x7F` (spec/20_memory.md R51). -/
abbrev Addr := BitVec 7

end Sys2Proof
end

