-- ==== Sys2Proof/Syntax.lean ====
section
/-! DEFINITION. The commands of the block, one constructor per row of spec/opcode_table.json (spec/30_encoding.md R82).
No command carries an operand in its word (R81): every operand is a named register (spec/10_state.md R29). -/

namespace Sys2Proof

/-- The thirteen commands, in the table's order (codes `0x00` to `0x0C`). -/
inductive Instr where
  | nop        -- spec/44_identifier.md R180
  | b32enc     -- spec/40_base32.md R121
  | b32dec     -- spec/40_base32.md R125
  | hexenc     -- spec/43_hex.md R161
  | hexdec     -- spec/43_hex.md R163
  | pack       -- spec/41_packing.md R142
  | unpack     -- spec/41_packing.md R144
  | sc2st      -- spec/42_scope.md R152
  | sc2pub     -- spec/42_scope.md R154
  | make       -- spec/44_identifier.md R176
  | parseb32   -- spec/44_identifier.md R177
  | parsehex   -- spec/44_identifier.md R178
  | cmp        -- spec/44_identifier.md R179
  deriving DecidableEq, Repr

end Sys2Proof
end

