-- ==== Sys2Proof/Decode.lean ====
section
/-! DEFINITION. The decoder and the encoder of the command word (spec/30_encoding.md R80, R82, R83). One byte is one
command; the whole byte is the operation code (mask `0xFF` in every row), so there is no length to find. -/

namespace Sys2Proof

/-- Why a byte is no command. -/
inductive DecodeError where
  /-- One of the 243 illegal codes `0x0D` to `0xFF` (spec/30_encoding.md R83), with the code. -/
  | illegalCommand (code : Byte)
  deriving DecidableEq, Repr

/-- The opcode map (spec/30_encoding.md R82), total on bytes; the codes outside it are rejected by name (R83). -/
def decode (code : Byte) : Except DecodeError Instr :=
  match code.toNat with
  | 0x00 => .ok .nop
  | 0x01 => .ok .b32enc
  | 0x02 => .ok .b32dec
  | 0x03 => .ok .hexenc
  | 0x04 => .ok .hexdec
  | 0x05 => .ok .pack
  | 0x06 => .ok .unpack
  | 0x07 => .ok .sc2st
  | 0x08 => .ok .sc2pub
  | 0x09 => .ok .make
  | 0x0A => .ok .parseb32
  | 0x0B => .ok .parsehex
  | 0x0C => .ok .cmp
  | _ => .error (.illegalCommand code)

/-- The operation code of a command (spec/30_encoding.md R82). -/
def encode : Instr → Byte
  | .nop => 0x00
  | .b32enc => 0x01
  | .b32dec => 0x02
  | .hexenc => 0x03
  | .hexdec => 0x04
  | .pack => 0x05
  | .unpack => 0x06
  | .sc2st => 0x07
  | .sc2pub => 0x08
  | .make => 0x09
  | .parseb32 => 0x0A
  | .parsehex => 0x0B
  | .cmp => 0x0C

/-- The command a table word of `nbits` bits stands for: the byte `w` given to the decoder. A word is one byte
(spec/30_encoding.md R80), so a word with a bit above the `nbits` given, or with more bits than a byte, is none. -/
def decodeTableWord (nbits w : Nat) : Option Instr :=
  if nbits ≤ 8 ∧ w < 2 ^ nbits then
    match decode (BitVec.ofNat 8 w) with
    | .ok i => some i
    | .error _ => none
  else none

end Sys2Proof
end

