-- ==== Sys2Proof/Machine/State.lean ====
section
/-! DEFINITION. The state of the block (spec/10_state.md R20 to R37), the edges of the host bus (spec/20_memory.md R67),
the names of the errors (spec/60_exceptions.md R201, R202), and the ways a step could stop. -/

namespace Sys2Proof.Machine

/-- The inputs of the block at one rising clock edge (spec/20_memory.md R67). -/
structure Edge where
  /-- 1 = reset at this edge, and any transaction presented with it is ignored. -/
  rst : Bool
  /-- 1 = a transaction takes place at this edge. -/
  sel : Bool
  /-- With `sel`: 1 = write, 0 = read. -/
  wr : Bool
  addr : Addr
  wdata : Byte
  deriving DecidableEq, Repr

/-- An edge without reset and without a transaction. -/
def Edge.idle : Edge := { rst := false, sel := false, wr := false, addr := 0, wdata := 0 }

/-- The host write transaction `MemWrite(a, 1, d)` (spec/20_memory.md R52). -/
def Edge.write (a : Addr) (d : Byte) : Edge := { rst := false, sel := true, wr := true, addr := a, wdata := d }

/-- The host read transaction `MemRead(a, 1)` (spec/20_memory.md R53). -/
def Edge.read (a : Addr) : Edge := { rst := false, sel := true, wr := false, addr := a, wdata := 0 }

/-- A reset edge (spec/70_reset_and_hazards.md R240) that presents no transaction. -/
def Edge.reset : Edge := { rst := true, sel := false, wr := false, addr := 0, wdata := 0 }

/-- The error kinds (spec/60_exceptions.md R201). -/
inductive Kind where
  | formatError
  | rangeError
  | reservedValueError
  /-- Never raised by the block (spec/60_exceptions.md R209); kept because the code space has it. -/
  | entropySourceError
  | illegalCommand
  deriving DecidableEq, Repr

/-- The checks a command can fail, which `DETAIL` names (spec/60_exceptions.md R202). -/
inductive Check where
  | len
  | char
  | overflow
  | group
  | tsRange
  | scopeRange
  | scopeReserved
  | illegalCmd
  deriving DecidableEq, Repr

/-- Faults that stop the machine: there is none. "The block is never stuck and never hangs: every transaction, and so
every command, completes" (spec/70_reset_and_hazards.md R247). No step raises one, so a claim that holds of every step
loses nothing here (safe). Errors are results in `STATUS` and `DETAIL`, not faults (spec/60_exceptions.md R200). -/
inductive Fault
  deriving DecidableEq, Repr

/-- Refusals. -/
inductive Refusal where
  /-- Raised by `exec` for a command without a meaning yet. Safe: nothing can be proved of such a command. No command of
  this model is left so. -/
  | notModelled (mnemonic : String)
  deriving DecidableEq, Repr

/-- The registers of the block (spec/10_state.md R20), and the two fields of the host interface that are the model's own
(log entries 1 and 2). Byte 0 of a multi-byte register is its most significant byte (spec/00_scope.md R10). -/
structure State where
  /-- `V`, the value register (R21). -/
  v : BitVec 128
  /-- `W`, the comparand (R22). -/
  w : BitVec 128
  /-- `TSW`, the timestamp register (R23). -/
  tsw : BitVec 64
  /-- `PSC`, the public scope register (R24). -/
  psc : BitVec 32
  /-- `SSC`, the stored scope register (R25). -/
  ssc : BitVec 16
  /-- `EN`, the entropy register (R26). -/
  en : BitVec 64
  /-- `T`, the text buffer, `T[0]` first (R27). -/
  t : Vector Byte 36
  /-- `TLEN`, the text length (R28). -/
  tlen : Byte
  /-- `STATUS`, the kind of result of the last command (R31). -/
  status : Byte
  /-- `DETAIL`, the check that failed in the last command (R32). -/
  detail : Byte
  /-- `CMPR`, the result of the last CMP (R33). -/
  cmpr : Byte
  /-- The edges the host will present, the next one first. DESIGN CHOICE (log entry 1): the model's own input, no state
  of the block. -/
  bus : List Edge
  /-- What the output `rdata` showed at the latest edge (spec/20_memory.md R67). DEDUCED (log entry 2): the model's own
  record of an output, no state of the block. -/
  rdata : Byte
  deriving DecidableEq, Repr

/-- After reset every register holds zero in every bit (spec/10_state.md R37); the host has presented nothing yet. -/
def State.reset : State :=
  { v := 0, w := 0, tsw := 0, psc := 0, ssc := 0, en := 0, t := Vector.replicate 36 0, tlen := 0,
    status := 0, detail := 0, cmpr := 0, bus := [], rdata := 0 }

end Sys2Proof.Machine
end

