-- ==== Sys2Proof/Machine/Flags.lean ====
section
/-! DEFINITION. The status computations: the codes of `STATUS` (spec/60_exceptions.md R201), of `DETAIL` (R202) and of
`CMPR` (spec/10_state.md R33, spec/44_identifier.md R179). -/

namespace Sys2Proof.Machine

/-- The `STATUS` code of an error kind (spec/60_exceptions.md R201); 0 is success. -/
def Kind.code : Kind → Byte
  | .formatError => 1
  | .rangeError => 2
  | .reservedValueError => 3
  | .entropySourceError => 4
  | .illegalCommand => 5

/-- The `DETAIL` code of a check (spec/60_exceptions.md R202); 0 is NONE. -/
def Check.code : Check → Byte
  | .len => 1
  | .char => 2
  | .overflow => 3
  | .group => 4
  | .tsRange => 5
  | .scopeRange => 6
  | .scopeReserved => 7
  | .illegalCmd => 8

/-- The one kind a check belongs to (spec/60_exceptions.md R202). -/
def Check.kind : Check → Kind
  | .len => .formatError
  | .char => .formatError
  | .overflow => .formatError
  | .group => .formatError
  | .tsRange => .rangeError
  | .scopeRange => .rangeError
  | .scopeReserved => .reservedValueError
  | .illegalCmd => .illegalCommand

/-- The unsigned order of two values as `CMPR` codes it: 0 equal, 1 less, 2 greater (spec/44_identifier.md R179). -/
def orderCode (a b : BitVec 128) : Byte := if a = b then 0 else if a < b then 1 else 2

end Sys2Proof.Machine
end

