-- ==== Sys2Proof/Machine/Operands.lean ====
section
/-! DEFINITION. How operands are seen: the bytes of a register (spec/00_scope.md R10, spec/30_encoding.md R81), the
digits of a value, the characters of the text buffer, the range tests of the two wide registers (spec/10_state.md R23,
R24), and the register map (spec/20_memory.md R54). -/

namespace Sys2Proof.Machine

/-! ### Bytes and digits, most significant first -/

/-- Byte `i` of a register of `n` bits, byte 0 the most significant: `X[i] = X[8(k-i)-1 : 8(k-i-1)]` with `n = 8k`
(spec/00_scope.md R10). -/
def byteOf {n : Nat} (x : BitVec n) (i : Nat) : Byte := x.extractLsb' (n - 8 * (i + 1)) 8

/-- `X[i] <- b`: byte `i` of a register replaced, the other bytes kept (spec/00_scope.md R13). -/
def setByteOf {n : Nat} (x : BitVec n) (i : Nat) (b : Byte) : BitVec n :=
  (x &&& ~~~((255#n) <<< (n - 8 * (i + 1)))) ||| ((b.setWidth n) <<< (n - 8 * (i + 1)))

/-- `f 0 ++ f 1 ++ … ++ f (k-1)`: `k` digits of `w` bits put together, the first the most significant
(spec/00_scope.md R9, R10). -/
def concatDigits (w : Nat) (f : Nat → BitVec w) : (k : Nat) → BitVec (w * k)
  | 0 => 0#(w * 0)
  | k + 1 => concatDigits w f k ++ f k

/-! ### The text buffer -/

/-- The character `T[k]` (spec/10_state.md R27). There are 36; no rule names a position beyond `T[35]`. -/
def charAt (t : Vector Byte 36) (k : Nat) : Byte := if h : k < 36 then t[k] else 0

/-- `for k in 0..m-1: T[k] <- s[k]`: the first `m` characters replaced, the others kept (spec/40_base32.md R121,
spec/43_hex.md R161). -/
def putText {m : Nat} (t : Vector Byte 36) (s : Vector Byte m) : Vector Byte 36 :=
  Vector.ofFn fun i => if h : i.val < m then s[i.val] else t[i]

/-! ### The wide operand registers -/

/-- The timestamp register is in range exactly when `TSW[63:48] = 0` (spec/10_state.md R23). -/
def tsInRange (tsw : BitVec 64) : Bool := tsw.extractLsb' 48 16 == 0

/-- `TSW[47:0]`. -/
def tsField (tsw : BitVec 64) : BitVec 48 := tsw.extractLsb' 0 48

/-- The public scope register is in range exactly when `PSC[31:16] = 0` (spec/10_state.md R24). -/
def pscInRange (psc : BitVec 32) : Bool := psc.extractLsb' 16 16 == 0

/-! ### The register map -/

/-- What stands at an address of the register space (spec/20_memory.md R54). -/
inductive Loc where
  | v (i : Fin 16)
  | w (i : Fin 16)
  | tsw (i : Fin 8)
  | psc (i : Fin 4)
  | ssc (i : Fin 2)
  | en (i : Fin 8)
  | tlen
  | status
  | detail
  | cmpr
  | cmd
  | t (i : Fin 36)
  | reserved
  deriving DecidableEq, Repr

/-- The register map (spec/20_memory.md R54): consecutive addresses hold consecutive bytes, byte 0 lowest (R57). -/
def locOf (a : Addr) : Loc :=
  if h : a.toNat < 0x10 then .v ⟨a.toNat, h⟩
  else if h : a.toNat < 0x20 then .w ⟨a.toNat - 0x10, by omega⟩
  else if h : a.toNat < 0x28 then .tsw ⟨a.toNat - 0x20, by omega⟩
  else if h : a.toNat < 0x2C then .psc ⟨a.toNat - 0x28, by omega⟩
  else if h : a.toNat < 0x2E then .ssc ⟨a.toNat - 0x2C, by omega⟩
  else if a.toNat < 0x30 then .reserved
  else if h : a.toNat < 0x38 then .en ⟨a.toNat - 0x30, by omega⟩
  else if a.toNat = 0x38 then .tlen
  else if a.toNat = 0x39 then .status
  else if a.toNat = 0x3A then .detail
  else if a.toNat = 0x3B then .cmpr
  else if a.toNat = 0x3C then .cmd
  else if a.toNat < 0x40 then .reserved
  else if h : a.toNat < 0x64 then .t ⟨a.toNat - 0x40, by omega⟩
  else .reserved

/-- The address of the command port (spec/20_memory.md R54). -/
def cmdAddr : Addr := 0x3C

end Sys2Proof.Machine
end

