-- ==== Sys2Proof/Machine/Ops.lean ====
section
/-! DEFINITION. The shared operations: reporting a result, the raise of an error (this block's exception entry,
spec/60_exceptions.md R206) and the commit of a command (spec/00_scope.md R14, R15), the byte reads and byte writes of the
register space (spec/20_memory.md R52, R53), and the reset of the registers (spec/70_reset_and_hazards.md R240).

There is no return from an error to write beside the raise: "There is no return instruction and no error state to leave"
(spec/60_exceptions.md R207). -/

namespace Sys2Proof.Machine

/-! ### How a command ends -/

/-- `STATUS` and `DETAIL` written together (spec/10_state.md R32). -/
def State.report (s : State) (status detail : Byte) : State := { s with status := status, detail := detail }

/-- `raise Kind(detail)`: `STATUS <- code(Kind)`, `DETAIL <- detail`, and nothing else (spec/00_scope.md R15); nothing is
saved and control goes nowhere (spec/60_exceptions.md R206). -/
def State.raise (s : State) (c : Check) : State := s.report c.kind.code c.code

/-- The end of a successful command: `STATUS <- 0 ; DETAIL <- 0` (spec/00_scope.md R14). -/
def State.succeed (s : State) : State := s.report 0 0

/-- A command's pseudocode `r`, evaluated on the registers before it, commits all its writes together or raises and
discards them all (spec/00_scope.md R14, R15). -/
def complete (s : State) (r : Except Check State) : State :=
  match r with
  | .ok s' => s'.succeed
  | .error c => s.raise c

/-! ### The register space -/

/-- The byte a read of a location returns; `CMD` and reserved locations read `0x00` (spec/20_memory.md R53). -/
def State.readLoc (s : State) : Loc → Byte
  | .v i => byteOf s.v i
  | .w i => byteOf s.w i
  | .tsw i => byteOf s.tsw i
  | .psc i => byteOf s.psc i
  | .ssc i => byteOf s.ssc i
  | .en i => byteOf s.en i
  | .tlen => s.tlen
  | .status => s.status
  | .detail => s.detail
  | .cmpr => s.cmpr
  | .cmd => 0
  | .t i => s.t[i]
  | .reserved => 0

/-- A byte written to a location: stored in a read-write register; read-only and reserved locations ignore it
(spec/20_memory.md R52, R55, R56). `CMD` stores nothing (spec/10_state.md R34); the command it runs is in Machine/Bus.lean. -/
def State.writeLoc (s : State) (l : Loc) (b : Byte) : State :=
  match l with
  | .v i => { s with v := setByteOf s.v i b }
  | .w i => { s with w := setByteOf s.w i b }
  | .tsw i => { s with tsw := setByteOf s.tsw i b }
  | .psc i => { s with psc := setByteOf s.psc i b }
  | .ssc i => { s with ssc := setByteOf s.ssc i b }
  | .en i => { s with en := setByteOf s.en i b }
  | .tlen => { s with tlen := b }
  | .status => s
  | .detail => s
  | .cmpr => s
  | .cmd => s
  | .t i => { s with t := s.t.set i b }
  | .reserved => s

/-- `MemRead(a, 1)` (spec/20_memory.md R53). -/
def State.memRead (s : State) (a : Addr) : Byte := s.readLoc (locOf a)

/-! ### Reset -/

/-- Every register takes its reset value (spec/70_reset_and_hazards.md R240). The host's further edges and the record of
the output are no registers of the block. -/
def State.resetRegs (s : State) : State := { State.reset with bus := s.bus, rdata := s.rdata }

end Sys2Proof.Machine
end

