-- ==== Sys2Proof/Config.lean ====
section
/-! DEFINITION. What is fixed when the block is built and not written at run time (spec/10_state.md R35): the two
parameters that spec/00_scope.md R8 asks a model to keep as arguments. The values this hardware takes are
`Sys2Proof.Machine.hardware` (Machine/Params.lean). The other rows of R8 are widths and lengths and stand in the types.

The spec leaves no value undefined, so there is no free value here. -/

namespace Sys2Proof

/-- The build's parameters (spec/00_scope.md R8). Every pure function that depends on one takes it as an argument. -/
structure Config where
  /-- `SCOPE_READBACK_REMAP` (spec/42_scope.md R153): whether stored 65535 is read back as public 0. -/
  scopeReadbackRemap : Bool
  /-- `U_ALIAS_VALUE` (spec/30_encoding.md R92): the 5-bit value the letters `U` and `u` decode to. -/
  uAliasValue : BitVec 5
  deriving DecidableEq, Repr

end Sys2Proof
end

