-- ==== Sys2Proof/Machine/Params.lean ====
section
/-! DEFINITION. The parameter values of this hardware (spec/00_scope.md R8; spec/92_eei_decisions.md D1, D2). -/

namespace Sys2Proof.Machine

/-- `SCOPE_READBACK_REMAP = false` and `U_ALIAS_VALUE = 22`: the spec's own decisions D1 and D2 (log entry 4). -/
def hardware : Config := { scopeReadbackRemap := false, uAliasValue := 22 }

end Sys2Proof.Machine
end

