-- ==== Sys2Proof/Machine/Text.lean ====
section
/-! DEFINITION. The character tables of the two text forms (spec/30_encoding.md R89 to R97) and the order of strings
(spec/00_scope.md R11). A character is an 8-bit ASCII code (spec/92_eei_decisions.md D6). -/

namespace Sys2Proof.Machine

/-- The code of a character literal (spec/00_scope.md R11). -/
def ascii (c : Char) : Byte := BitVec.ofNat 8 c.toNat

/-- String order: lexicographic order of the codes, first character most significant (spec/00_scope.md R11). -/
def textLt : List Byte → List Byte → Bool
  | _, [] => false
  | [], _ :: _ => true
  | a :: as, b :: bs => decide (a < b) || (a == b && textLt as bs)

/-! ### Form A: Base32 -/

/-- The 5-bit group `g_k` of a value: `((0b00 ++ N) >> (5·(25-k)))[4:0]` (spec/30_encoding.md R89). -/
def b32Group (n : BitVec 128) (k : Nat) : BitVec 5 := (0b00#2 ++ n).extractLsb' (5 * (25 - k)) 5

/-- The encode alphabet `0123456789ABCDEFGHJKMNPQRSTVWXYZ` as codes (spec/30_encoding.md R90). -/
def alphabetTable : Vector Byte 32 :=
  #v[0x30, 0x31, 0x32, 0x33, 0x34, 0x35, 0x36, 0x37, 0x38, 0x39, 0x41, 0x42, 0x43, 0x44, 0x45, 0x46,
     0x47, 0x48, 0x4A, 0x4B, 0x4D, 0x4E, 0x50, 0x51, 0x52, 0x53, 0x54, 0x56, 0x57, 0x58, 0x59, 0x5A]

/-- `ALPHABET[g]` (spec/30_encoding.md R90). -/
def alphabet (g : BitVec 5) : Byte := alphabetTable[g.toNat]

/-- A lower-case letter as its upper-case letter; any other code as it is (spec/30_encoding.md R91). -/
def foldCase (c : Byte) : Byte := if 0x61 ≤ c ∧ c ≤ 0x7A then c - 0x20 else c

/-- The index at which a code stands in the alphabet, if it does. -/
def alphabetIndex (c : Byte) : Option (BitVec 5) :=
  ((List.range 32).find? fun i => alphabet (BitVec.ofNat 5 i) == c).map (BitVec.ofNat 5)

/-- `b32_value(c)`: case folded, the confusable letters substituted, then the index in the alphabet, or invalid
(spec/30_encoding.md R91, R92; spec/40_base32.md R122). `u` is `U_ALIAS_VALUE`. -/
def b32Value (u : BitVec 5) (c : Byte) : Option (BitVec 5) :=
  let d := foldCase c
  if d = ascii 'I' ∨ d = ascii 'L' then some 1
  else if d = ascii 'O' then some 0
  else if d = ascii 'U' then some u
  else alphabetIndex d

/-! ### Form B: hex -/

/-- The hyphen's code (spec/30_encoding.md R95). -/
def hyphen : Byte := 0x2D

/-- The four hyphen positions of form B (spec/30_encoding.md R95). -/
def hyphenPositions : List Nat := [8, 13, 18, 23]

/-- Digit `d_j` of a value: `d_2i` is the high nibble of byte `i`, `d_2i+1` the low one (spec/30_encoding.md R95). -/
def hexNibble (n : BitVec 128) (j : Nat) : BitVec 4 := n.extractLsb' (4 * (31 - j)) 4

/-- `HEXDIGIT[n]`, always lower case (spec/30_encoding.md R96). -/
def hexDigit (d : BitVec 4) : Byte :=
  if d.toNat < 10 then BitVec.ofNat 8 (0x30 + d.toNat) else BitVec.ofNat 8 (0x61 + (d.toNat - 10))

/-- `hex_value(c)`, either case, or invalid (spec/30_encoding.md R96). -/
def hexValue (c : Byte) : Option (BitVec 4) :=
  if 0x30 ≤ c ∧ c ≤ 0x39 then some (BitVec.ofNat 4 (c.toNat - 0x30))
  else if 0x61 ≤ c ∧ c ≤ 0x66 then some (BitVec.ofNat 4 (c.toNat - 0x61 + 10))
  else if 0x41 ≤ c ∧ c ≤ 0x46 then some (BitVec.ofNat 4 (c.toNat - 0x41 + 10))
  else none

/-- `hexpos(j)`, the position of digit `d_j` (spec/30_encoding.md R97). -/
def hexpos (j : Nat) : Nat :=
  j + (if j < 8 then 0 else if j < 12 then 1 else if j < 16 then 2 else if j < 20 then 3 else 4)

end Sys2Proof.Machine
end

