-- ==== Sys2Proof/Machine/Base32.lean ====
section
/-! DEFINITION. The Base32 codec (spec/40_base32.md R120 to R125): the two pure functions and the commands B32ENC, B32DEC. -/

namespace Sys2Proof.Machine

/-- `b32_encode(n)` (spec/40_base32.md R120). -/
def b32Encode (n : BitVec 128) : Vector Byte 26 := Vector.ofFn fun k => alphabet (b32Group n k)

/-- `b32_decode(len, s)` (spec/40_base32.md R123, R124): the checks LEN, CHAR, OVERFLOW in this order, all before the 26
groups are put together into 130 bits, whose low 128 are the value. -/
def b32Decode (cfg : Config) (len : Byte) (s : Vector Byte 36) : Except Check (BitVec 128) :=
  if len ≠ 26 then .error .len
  else if (List.range 26).any fun k => (b32Value cfg.uAliasValue (charAt s k)).isNone then .error .char
  else if 7 < (b32Value cfg.uAliasValue (charAt s 0)).getD 0 then .error .overflow
  else .ok ((concatDigits 5 (fun k => (b32Value cfg.uAliasValue (charAt s k)).getD 0) 26).extractLsb' 0 128)

/-- B32ENC (spec/40_base32.md R121). -/
def b32encCmd (s : State) : Except Check State := .ok { s with t := putText s.t (b32Encode s.v), tlen := 26 }

/-- B32DEC (spec/40_base32.md R125). -/
def b32decCmd (cfg : Config) (s : State) : Except Check State :=
  match b32Decode cfg s.tlen s.t with
  | .error c => .error c
  | .ok n => .ok { s with v := n }

/-- The meaning of B32ENC (spec/40_base32.md R121). -/
def execB32enc (s : State) : Host.Outcome State Fault Refusal := .next (complete s (b32encCmd s))

/-- The meaning of B32DEC (spec/40_base32.md R125). -/
def execB32dec (s : State) : Host.Outcome State Fault Refusal := .next (complete s (b32decCmd hardware s))

end Sys2Proof.Machine
end

