-- ==== Sys2Proof/Machine/Hex.lean ====
section
/-! DEFINITION. The hex codec (spec/43_hex.md R160 to R163): the two pure functions and the commands HEXENC, HEXDEC. -/

namespace Sys2Proof.Machine

/-- The digit that stands at position `p` of form B, none at a hyphen: the inverse of `hexpos`
(spec/30_encoding.md R97). -/
def hexDigitAt (p : Nat) : Option Nat := (List.range 32).find? fun j => hexpos j == p

/-- `hex_encode(n)` (spec/43_hex.md R160). -/
def hexEncode (n : BitVec 128) : Vector Byte 36 :=
  Vector.ofFn fun p =>
    match hexDigitAt p with
    | some j => hexDigit (hexNibble n j)
    | none => hyphen

/-- `hex_decode(len, s)` (spec/43_hex.md R162): the checks LEN, GROUP, CHAR in this order, all before the 32 digits are
put together. -/
def hexDecode (len : Byte) (s : Vector Byte 36) : Except Check (BitVec 128) :=
  if len ≠ 36 then .error .len
  else if hyphenPositions.any fun p => charAt s p != hyphen then .error .group
  else if (List.range 32).any fun j => (hexValue (charAt s (hexpos j))).isNone then .error .char
  else .ok (concatDigits 4 (fun j => (hexValue (charAt s (hexpos j))).getD 0) 32)

/-- HEXENC (spec/43_hex.md R161). -/
def hexencCmd (s : State) : Except Check State := .ok { s with t := putText s.t (hexEncode s.v), tlen := 36 }

/-- HEXDEC (spec/43_hex.md R163). -/
def hexdecCmd (s : State) : Except Check State :=
  match hexDecode s.tlen s.t with
  | .error c => .error c
  | .ok n => .ok { s with v := n }

/-- The meaning of HEXENC (spec/43_hex.md R161). -/
def execHexenc (s : State) : Host.Outcome State Fault Refusal := .next (complete s (hexencCmd s))

/-- The meaning of HEXDEC (spec/43_hex.md R163). -/
def execHexdec (s : State) : Host.Outcome State Fault Refusal := .next (complete s (hexdecCmd s))

end Sys2Proof.Machine
end

