-- ==== Sys2Proof/Machine/Packing.lean ====
section
/-! DEFINITION. Field packing (spec/41_packing.md R141 to R144) over the binary layout of spec/30_encoding.md R87: the two
pure functions and the commands PACK, UNPACK. -/

namespace Sys2Proof.Machine

/-- `pack(ts, sc, en)`: `ts` in bits 127:80, `sc` in 79:64, `en` in 63:0 (spec/41_packing.md R141). -/
def pack (ts : BitVec 48) (sc : BitVec 16) (en : BitVec 64) : BitVec 128 := ts ++ sc ++ en

/-- `unpack(n)` (spec/41_packing.md R143). -/
def unpack (n : BitVec 128) : BitVec 48 × BitVec 16 × BitVec 64 :=
  (n.extractLsb' 80 48, n.extractLsb' 64 16, n.extractLsb' 0 64)

/-- PACK (spec/41_packing.md R142). -/
def packCmd (s : State) : Except Check State :=
  if tsInRange s.tsw then .ok { s with v := pack (tsField s.tsw) s.ssc s.en } else .error .tsRange

/-- UNPACK (spec/41_packing.md R144). -/
def unpackCmd (s : State) : Except Check State :=
  .ok { s with tsw := (unpack s.v).1.setWidth 64, ssc := (unpack s.v).2.1, en := (unpack s.v).2.2 }

/-- The meaning of PACK (spec/41_packing.md R142). -/
def execPack (s : State) : Host.Outcome State Fault Refusal := .next (complete s (packCmd s))

/-- The meaning of UNPACK (spec/41_packing.md R144). -/
def execUnpack (s : State) : Host.Outcome State Fault Refusal := .next (complete s (unpackCmd s))

end Sys2Proof.Machine
end

