-- ==== Sys2Proof/Machine/Scope.lean ====
section
/-! DEFINITION. Scope normalization (spec/42_scope.md R151 to R154): the two pure functions and the commands SC2ST, SC2PUB. -/

namespace Sys2Proof.Machine

/-- `to_stored(p)` (spec/42_scope.md R151). -/
def toStored (p : BitVec 32) : Except Check (BitVec 16) :=
  if !pscInRange p then .error .scopeRange
  else if p.extractLsb' 0 16 = 0 then .ok 0xFFFF
  else .ok (p.extractLsb' 0 16)

/-- `to_public(s)` (spec/42_scope.md R153). -/
def toPublic (cfg : Config) (s : BitVec 16) : Except Check (BitVec 16) :=
  if s = 0 then .error .scopeReserved
  else if cfg.scopeReadbackRemap && s == 0xFFFF then .ok 0
  else .ok s

/-- SC2ST (spec/42_scope.md R152). -/
def sc2stCmd (s : State) : Except Check State :=
  match toStored s.psc with
  | .error c => .error c
  | .ok x => .ok { s with ssc := x }

/-- SC2PUB (spec/42_scope.md R154). -/
def sc2pubCmd (cfg : Config) (s : State) : Except Check State :=
  match toPublic cfg s.ssc with
  | .error c => .error c
  | .ok p => .ok { s with psc := p.setWidth 32 }

/-- The meaning of SC2ST (spec/42_scope.md R152). -/
def execSc2st (s : State) : Host.Outcome State Fault Refusal := .next (complete s (sc2stCmd s))

/-- The meaning of SC2PUB (spec/42_scope.md R154). -/
def execSc2pub (s : State) : Host.Outcome State Fault Refusal := .next (complete s (sc2pubCmd hardware s))

end Sys2Proof.Machine
end

