-- ==== Sys2Proof/Machine/Identifier.lean ====
section
/-! DEFINITION. The identifier paths and the comparison (spec/44_identifier.md R175 to R180): MAKE, PARSEB32, PARSEHEX,
CMP, NOP. -/

namespace Sys2Proof.Machine

/-- MAKE (spec/44_identifier.md R176): the timestamp range, then the scope; `to_public` of the stored scope cannot fail,
since `to_stored` never gives 0. -/
def makeCmd (cfg : Config) (s : State) : Except Check State :=
  if !tsInRange s.tsw then .error .tsRange
  else
    match toStored s.psc with
    | .error c => .error c
    | .ok x =>
      match toPublic cfg x with
      | .error c => .error c
      | .ok p => .ok { s with v := pack (tsField s.tsw) x s.en, ssc := x, psc := p.setWidth 32 }

/-- The common end of the two parse paths (spec/44_identifier.md R177, from "(ts, sc, en) = unpack(n)" on; R178). -/
def parseValue (cfg : Config) (n : BitVec 128) (s : State) : Except Check State :=
  match toPublic cfg (unpack n).2.1 with
  | .error c => .error c
  | .ok p =>
    .ok { s with
      v := n, tsw := (unpack n).1.setWidth 64, ssc := (unpack n).2.1, psc := p.setWidth 32, en := (unpack n).2.2 }

/-- PARSEB32 (spec/44_identifier.md R177). -/
def parseb32Cmd (cfg : Config) (s : State) : Except Check State :=
  match b32Decode cfg s.tlen s.t with
  | .error c => .error c
  | .ok n => parseValue cfg n s

/-- PARSEHEX (spec/44_identifier.md R178). -/
def parsehexCmd (cfg : Config) (s : State) : Except Check State :=
  match hexDecode s.tlen s.t with
  | .error c => .error c
  | .ok n => parseValue cfg n s

/-- CMP (spec/44_identifier.md R179). -/
def cmpCmd (s : State) : Except Check State := .ok { s with cmpr := orderCode s.v s.w }

/-- NOP (spec/44_identifier.md R180): nothing but the report of success. -/
def nopCmd (s : State) : Except Check State := .ok s

/-- The meaning of MAKE (spec/44_identifier.md R176). -/
def execMake (s : State) : Host.Outcome State Fault Refusal := .next (complete s (makeCmd hardware s))

/-- The meaning of PARSEB32 (spec/44_identifier.md R177). -/
def execParseb32 (s : State) : Host.Outcome State Fault Refusal := .next (complete s (parseb32Cmd hardware s))

/-- The meaning of PARSEHEX (spec/44_identifier.md R178). -/
def execParsehex (s : State) : Host.Outcome State Fault Refusal := .next (complete s (parsehexCmd hardware s))

/-- The meaning of CMP (spec/44_identifier.md R179). -/
def execCmp (s : State) : Host.Outcome State Fault Refusal := .next (complete s (cmpCmd s))

/-- The meaning of NOP (spec/44_identifier.md R180). -/
def execNop (s : State) : Host.Outcome State Fault Refusal := .next (complete s (nopCmd s))

end Sys2Proof.Machine
end

