-- ==== Sys2Proof/Machine/Dispatch.lean ====
section
/-! DEFINITION. The dispatch of a command to its meaning, one arm per constructor of Instr. -/

namespace Sys2Proof.Machine

def exec (i : Instr) (s : State) : Host.Outcome State Fault Refusal :=
  match i with
  | .nop => Sys2Proof.Machine.execNop s
  | .b32enc => Sys2Proof.Machine.execB32enc s
  | .b32dec => Sys2Proof.Machine.execB32dec s
  | .hexenc => Sys2Proof.Machine.execHexenc s
  | .hexdec => Sys2Proof.Machine.execHexdec s
  | .pack => Sys2Proof.Machine.execPack s
  | .unpack => Sys2Proof.Machine.execUnpack s
  | .sc2st => Sys2Proof.Machine.execSc2st s
  | .sc2pub => Sys2Proof.Machine.execSc2pub s
  | .make => Sys2Proof.Machine.execMake s
  | .parseb32 => Sys2Proof.Machine.execParseb32 s
  | .parsehex => Sys2Proof.Machine.execParsehex s
  | .cmp => Sys2Proof.Machine.execCmp s

end Sys2Proof.Machine
end

