-- ==== Sys2Proof/Machine/Bus.lean ====
section
/-! DEFINITION. The host bus: a command byte, the write transaction and one rising clock edge (spec/20_memory.md R52, R53,
R67). -/

namespace Sys2Proof.Machine

/-- The command a byte written to CMD runs (spec/20_memory.md R52). An illegal code raises IllegalCommand(ILLEGAL_CMD):
`STATUS <- 5`, `DETAIL <- 8`, nothing else (spec/60_exceptions.md R208). -/
def command (c : Byte) (s : State) : Host.Outcome State Fault Refusal :=
  match decode c with
  | .ok i => exec i s
  | .error _ => .next (s.raise .illegalCmd)

/-- `MemWrite(a, 1, d)` (spec/20_memory.md R52). -/
def memWrite (a : Addr) (d : Byte) (s : State) : Host.Outcome State Fault Refusal :=
  match locOf a with
  | .cmd => command d s
  | l => .next (s.writeLoc l d)

/-- The output `rdata` at an edge: the byte at `addr` of the contents before the edge when `sel = 1` and `wr = 0`, else
`0x00` (spec/20_memory.md R67). `rst` plays no part in it (log entry 2). -/
def rdataAt (e : Edge) (s : State) : Byte := if e.sel && !e.wr then s.memRead e.addr else 0

/-- One rising clock edge (spec/20_memory.md R67): with `rst = 1` the block resets and ignores `sel`; else a write
transaction is performed; else, at a read or with `sel = 0`, no register changes. -/
def clockEdge (e : Edge) (s : State) : Host.Outcome State Fault Refusal :=
  let s₁ := { s with rdata := rdataAt e s }
  if e.rst then .next s₁.resetRegs
  else if e.sel && e.wr then memWrite e.addr e.wdata s₁
  else .next s₁

/-- The edge the host presents next: the first of the list, or, with none left, an edge with `sel = 0` (log entry 1). -/
def nextEdge (s : State) : Edge :=
  match s.bus with
  | [] => Edge.idle
  | e :: _ => e

/-- The state once the next edge is taken from the list. -/
def State.takeEdge (s : State) : State := { s with bus := s.bus.tail }

/-- The edge that brings the table word `w` of `nbits` bits to the block: a write of the byte to CMD
(spec/30_encoding.md R80). -/
def fetchEdge (nbits w : Nat) : Edge := Edge.write cmdAddr (BitVec.ofNat 8 (w % 2 ^ nbits))

end Sys2Proof.Machine
end

