-- ==== Sys2Proof/Machine/Step.lean ====
section
/-! DEFINITION. One step of the machine: one rising clock edge with the inputs the host presents (spec/20_memory.md R67).
The block fetches nothing (spec/10_state.md R30); a command comes to it as the data byte of a write to CMD. -/

namespace Sys2Proof.Machine

/-- One step: the next edge is taken from the host's list and happens (spec/20_memory.md R61). -/
def step (s : State) : Host.Outcome State Fault Refusal := clockEdge (nextEdge s) s.takeEdge

/-- `s` with the table word `w` of `nbits` bits as the command of the very next step: a write of it to CMD put before the
host's other edges (log entry 5). -/
def State.withFetchWord (s : State) (nbits w : Nat) : State := { s with bus := fetchEdge nbits w :: s.bus }

end Sys2Proof.Machine
end

