-- ==== Sys2Proof/Safety.lean ====
section
/-! DEFINITION. What claims are about: the reports a register pair `STATUS`, `DETAIL` may hold (spec/60_exceptions.md
R203), the result codes that may occur (spec/10_state.md R31 to R33), and the Identifier view of the registers
(spec/10_state.md R38). -/

namespace Sys2Proof.Machine

/-- The pairs `STATUS/DETAIL` that some command can leave, success first (spec/60_exceptions.md R203). -/
def legalReports : List (Byte × Byte) :=
  [(0, 0), (1, 1), (1, 2), (1, 3), (1, 4), (2, 5), (2, 6), (3, 7), (5, 8)]

/-- The read-only registers hold codes that occur: a legal pair in `STATUS`, `DETAIL` and one of the three orders in
`CMPR` (spec/60_exceptions.md R203, spec/10_state.md R33). -/
def State.reportsLegal (s : State) : Prop := (s.status, s.detail) ∈ legalReports ∧ s.cmpr.toNat ≤ 2

/-- The last command succeeded, or none has run since reset (spec/10_state.md R31). -/
def State.succeeded (s : State) : Prop := s.status = 0 ∧ s.detail = 0

/-- The registers together hold one Identifier (spec/10_state.md R38): `V = TSW[47:0] ++ SSC ++ EN`, `TSW[63:48] = 0`,
`SSC ≠ 0`, `PSC = zext_32(to_public(SSC))`. -/
def State.isIdentifier (cfg : Config) (s : State) : Prop :=
  s.v = (s.tsw.extractLsb' 0 48 ++ s.ssc ++ s.en : BitVec 128) ∧ s.tsw.extractLsb' 48 16 = 0 ∧ s.ssc ≠ 0 ∧
    ∃ p, toPublic cfg s.ssc = .ok p ∧ s.psc = p.setWidth 32

/-- The registers a failing command leaves alone: all but `STATUS` and `DETAIL` (spec/60_exceptions.md R200). -/
def State.sameButReport (s t : State) : Prop := t = { s with status := t.status, detail := t.detail }

/-- `T[k]` as the rules write it, for `k` in 0..35. -/
def State.char (s : State) (k : Nat) : Byte := charAt s.t k

end Sys2Proof.Machine
end

