-- ==== Sys2Proof/Machine/HostProgram.lean ====
section
/-! DEFINITION. The host-program notation (spec/30_encoding.md R85, R86): a program of this block is a list of bus
transactions, and a line of the notation expands into some of them. Not part of the block: it writes down what a host
does. -/

namespace Sys2Proof.Machine

/-- A line of the notation, with its numbers as they are written (ranges: Sys2Proof/WellFormed.lean). -/
inductive HostLine where
  /-- `WR a, b` (R85). -/
  | wr (a b : Nat)
  /-- `RD a` (R85). -/
  | rd (a : Nat)
  /-- `CMD m`, `m` a mnemonic (R85). -/
  | cmd (m : Instr)
  /-- `CMD c`, `c` a code, as spec/95_test_vectors.md program P3 writes an illegal one. -/
  | cmdCode (c : Nat)
  | ldv (h : Nat)
  | ldw (h : Nat)
  | ldts (n : Int)
  | ldpsc (n : Int)
  | ldssc (n : Nat)
  | lden (h : Nat)
  /-- `LDT "s"`, `s` as its character codes. -/
  | ldt (s : List Byte)
  | ldtlen (n : Nat)
  | rdv
  | rdts
  | rdpsc
  | rdssc
  | rden
  | rdt (n : Nat)
  | rdst
  deriving DecidableEq, Repr

/-- `k` writes, of bytes 0 to `k-1` of a register image, to ascending addresses from `base`. -/
def storeBytes {n : Nat} (base k : Nat) (x : BitVec n) : List Edge :=
  (List.range k).map fun i => Edge.write (BitVec.ofNat 7 (base + i)) (byteOf x i)

/-- `k` reads at ascending addresses from `base`. -/
def loadBytes (base k : Nat) : List Edge := (List.range k).map fun i => Edge.read (BitVec.ofNat 7 (base + i))

/-- The transactions a line stands for (spec/30_encoding.md R85, R86). -/
def HostLine.edges : HostLine → List Edge
  | .wr a b => [Edge.write (BitVec.ofNat 7 a) (BitVec.ofNat 8 b)]
  | .rd a => [Edge.read (BitVec.ofNat 7 a)]
  | .cmd m => [Edge.write cmdAddr (encode m)]
  | .cmdCode c => [Edge.write cmdAddr (BitVec.ofNat 8 c)]
  | .ldv h => storeBytes 0x00 16 (BitVec.ofNat 128 h)
  | .ldw h => storeBytes 0x10 16 (BitVec.ofNat 128 h)
  | .ldts n => storeBytes 0x20 8 (BitVec.ofInt 64 n)
  | .ldpsc n => storeBytes 0x28 4 (BitVec.ofInt 32 n)
  | .ldssc n => storeBytes 0x2C 2 (BitVec.ofNat 16 n)
  | .lden h => storeBytes 0x30 8 (BitVec.ofNat 64 h)
  | .ldt s =>
    (s.zipIdx.map fun p => Edge.write (BitVec.ofNat 7 (0x40 + p.2)) p.1) ++
      [Edge.write 0x38 (BitVec.ofNat 8 s.length)]
  | .ldtlen n => [Edge.write 0x38 (BitVec.ofNat 8 n)]
  | .rdv => loadBytes 0x00 16
  | .rdts => loadBytes 0x20 8
  | .rdpsc => loadBytes 0x28 4
  | .rdssc => loadBytes 0x2C 2
  | .rden => loadBytes 0x30 8
  | .rdt n => loadBytes 0x40 n
  | .rdst => [Edge.read 0x39, Edge.read 0x3A]

/-- A host program, its lines' transactions after those the host already has to present. -/
def State.withProgram (s : State) (p : List HostLine) : State := { s with bus := s.bus ++ p.flatMap HostLine.edges }

end Sys2Proof.Machine
end

