-- ==== Sys2Proof/WellFormed.lean ====
section
/-! DEFINITION. Well-formedness. A command has no operand (spec/30_encoding.md R80, R81), so every Instr is well formed;
the terms with operands are the lines of the host-program notation, whose ranges spec/30_encoding.md R85 and R86 give. -/

namespace Sys2Proof

/-- Every command is well formed: there is no field that could be out of range (spec/30_encoding.md R80). -/
def Instr.wellFormed : Instr → Bool
  | .nop | .b32enc | .b32dec | .hexenc | .hexdec | .pack | .unpack => true
  | .sc2st | .sc2pub | .make | .parseb32 | .parsehex | .cmp => true

namespace Machine

/-- The ranges of a line's operands (spec/30_encoding.md R85, R86; addresses and bytes: spec/20_memory.md R52). -/
def HostLine.wellFormed : HostLine → Bool
  | .wr a b => decide (a < 2 ^ 7) && decide (b < 2 ^ 8)
  | .rd a => decide (a < 2 ^ 7)
  | .cmd m => m.wellFormed
  | .cmdCode c => decide (c < 2 ^ 8)
  | .ldv h => decide (h < 2 ^ 128)
  | .ldw h => decide (h < 2 ^ 128)
  | .ldts n => decide (n < 2 ^ 64)
  | .ldpsc n => decide (n < 2 ^ 32)
  | .ldssc n => decide (n < 2 ^ 16)
  | .lden h => decide (h < 2 ^ 64)
  | .ldt s => decide (s.length ≤ 36) && s.all fun c => decide (c < 0x80)
  | .ldtlen n => decide (n < 2 ^ 8)
  | .rdv | .rdts | .rdpsc | .rdssc | .rden | .rdst => true
  | .rdt n => decide (n ≤ 36)

end Machine

end Sys2Proof
end

