-- ==== Sys2Proof/Certificates/Slice0/Obligations.lean ====
section
/-! DEFINITION. The statements for the provers, and the helpers they are written with. The helpers (namespace Claims) write
the spec's tables and slices out on their own, not through the model's definitions, so that a statement can disagree with
the model. A statement about `step` uses the fields `bus` and `rdata`, which are the model's own (log entries 1 and 2). -/

namespace Sys2Proof.Claims

open Sys2Proof.Machine

/-- The byte at an address, as the map of spec/20_memory.md R54 has it: `V[i]` at `0x00 + i` and so on, byte 0 the most
significant; `CMD` and reserved addresses read `0x00`. -/
def byteAt (s : State) (a : Nat) : Byte :=
  if a < 0x10 then s.v.extractLsb' (8 * (15 - a)) 8
  else if a < 0x20 then s.w.extractLsb' (8 * (15 - (a - 0x10))) 8
  else if a < 0x28 then s.tsw.extractLsb' (8 * (7 - (a - 0x20))) 8
  else if a < 0x2C then s.psc.extractLsb' (8 * (3 - (a - 0x28))) 8
  else if a < 0x2E then s.ssc.extractLsb' (8 * (1 - (a - 0x2C))) 8
  else if a < 0x30 then 0
  else if a < 0x38 then s.en.extractLsb' (8 * (7 - (a - 0x30))) 8
  else if a = 0x38 then s.tlen
  else if a = 0x39 then s.status
  else if a = 0x3A then s.detail
  else if a = 0x3B then s.cmpr
  else if a < 0x40 then 0
  else if a < 0x64 then charAt s.t (a - 0x40)
  else 0

/-- The addresses of read-write registers (spec/20_memory.md R54). -/
def readWrite (a : Nat) : Prop := a < 0x2E ∨ (0x30 ≤ a ∧ a ≤ 0x38) ∨ (0x40 ≤ a ∧ a ≤ 0x63)

/-- The reserved addresses (spec/20_memory.md R55). -/
def reserved (a : Nat) : Prop := a = 0x2E ∨ a = 0x2F ∨ (0x3D ≤ a ∧ a ≤ 0x3F) ∨ (0x64 ≤ a ∧ a ≤ 0x7F)

/-- `g_k = ((0b00 ++ N) >> (5·(25-k)))[4:0]` (spec/30_encoding.md R89). -/
def group (n : BitVec 128) (k : Nat) : BitVec 5 := ((0b00#2 ++ n : BitVec 130) >>> (5 * (25 - k))).extractLsb' 0 5

/-- Digit `d_j` of the 32 hexadecimal digits of a value, most significant first (spec/30_encoding.md R95). -/
def digit (n : BitVec 128) (j : Nat) : BitVec 4 := (n >>> (4 * (31 - j))).extractLsb' 0 4

/-- The text positions of the 32 digits (spec/30_encoding.md R97). -/
def digitPositions : List Nat :=
  [0, 1, 2, 3, 4, 5, 6, 7, 9, 10, 11, 12, 14, 15, 16, 17, 19, 20, 21, 22, 24, 25, 26, 27, 28, 29, 30, 31, 32, 33, 34, 35]

/-- The position of digit `d_j` (spec/30_encoding.md R97). -/
def digitPos (j : Nat) : Nat := digitPositions.getD j 0

/-- The character `T[k]` of a state. -/
def ch (s : State) (k : Nat) : Byte := charAt s.t k

/-- The value of `T[k]` on this hardware (`U_ALIAS_VALUE = 22`, spec/30_encoding.md R92). -/
def val32 (s : State) (k : Nat) : Option (BitVec 5) := b32Value 22 (ch s k)

/-- The text buffer holds 26 characters whose values are the groups of `n` (spec/30_encoding.md R89, R92). -/
def readsBase32 (s : State) (n : BitVec 128) : Prop := s.tlen = 26 ∧ ∀ k < 26, val32 s k = some (group n k)

/-- The text buffer holds form B of `n`, in either case (spec/30_encoding.md R95, R96). -/
def readsHex (s : State) (n : BitVec 128) : Prop :=
  s.tlen = 36 ∧ (∀ p ∈ [8, 13, 18, 23], ch s p = 0x2D) ∧ ∀ j < 32, hexValue (ch s (digitPos j)) = some (digit n j)

/-- The registers with the report `STATUS = k`, `DETAIL = d` and nothing else changed. -/
def reported (s : State) (k d : Byte) : State := { s with status := k, detail := d }

/-- The registers after a successful PARSE of `n` (spec/44_identifier.md R177), on this hardware. -/
def parsed (s : State) (n : BitVec 128) : State :=
  { s with
    v := n, tsw := (n.extractLsb' 80 48).setWidth 64, ssc := n.extractLsb' 64 16,
    psc := (n.extractLsb' 64 16).setWidth 32, en := n.extractLsb' 0 64, status := 0, detail := 0 }

/-- The stored scope of a public scope in range: 0 is the sentinel for 65535 (spec/42_scope.md R151). -/
def storedScope (p : BitVec 32) : BitVec 16 := if p.extractLsb' 0 16 = 0 then 0xFFFF else p.extractLsb' 0 16

/-- The 32 symbols as ULIDJS prints them (spec/30_encoding.md R90). -/
def alphabetChars : List Char :=
  ['0', '1', '2', '3', '4', '5', '6', '7', '8', '9', 'A', 'B', 'C', 'D', 'E', 'F', 'G', 'H', 'J', 'K', 'M', 'N', 'P', 'Q',
   'R', 'S', 'T', 'V', 'W', 'X', 'Y', 'Z']

/-- The rows of the decode table, upper-case letter, lower-case letter, value; `u` is `U_ALIAS_VALUE`
(spec/30_encoding.md R92). -/
def letterRows (u : BitVec 5) : List (Char × Char × BitVec 5) :=
  [('A', 'a', 10), ('B', 'b', 11), ('C', 'c', 12), ('D', 'd', 13), ('E', 'e', 14), ('F', 'f', 15), ('G', 'g', 16),
   ('H', 'h', 17), ('I', 'i', 1), ('J', 'j', 18), ('K', 'k', 19), ('L', 'l', 1), ('M', 'm', 20), ('N', 'n', 21),
   ('O', 'o', 0), ('P', 'p', 22), ('Q', 'q', 23), ('R', 'r', 24), ('S', 's', 25), ('T', 't', 26), ('U', 'u', u),
   ('V', 'v', 27), ('W', 'w', 28), ('X', 'x', 29), ('Y', 'y', 30), ('Z', 'z', 31)]

/-- The first characters of form A that the overflow guard lets pass (spec/40_base32.md R124). -/
def guardPasses : List Char := ['0', '1', '2', '3', '4', '5', '6', '7', 'O', 'o', 'I', 'i', 'L', 'l']

/-- Byte `i` of a 128-bit value, byte 0 the most significant (spec/00_scope.md R10). -/
def vbyte (n : BitVec 128) (i : Nat) : BitVec 8 := n.extractLsb' (8 * (15 - i)) 8

/-- The bit slices of each character of form A as bytes of `V` (spec/30_encoding.md R93). -/
def byteSlices (n : BitVec 128) : List (BitVec 5) :=
  let V := vbyte n
  [0b00#2 ++ (V 0).extractLsb' 5 3, (V 0).extractLsb' 0 5, (V 1).extractLsb' 3 5,
   (V 1).extractLsb' 0 3 ++ (V 2).extractLsb' 6 2, (V 2).extractLsb' 1 5,
   (V 2).extractLsb' 0 1 ++ (V 3).extractLsb' 4 4, (V 3).extractLsb' 0 4 ++ (V 4).extractLsb' 7 1,
   (V 4).extractLsb' 2 5, (V 4).extractLsb' 0 2 ++ (V 5).extractLsb' 5 3, (V 5).extractLsb' 0 5, (V 6).extractLsb' 3 5,
   (V 6).extractLsb' 0 3 ++ (V 7).extractLsb' 6 2, (V 7).extractLsb' 1 5,
   (V 7).extractLsb' 0 1 ++ (V 8).extractLsb' 4 4, (V 8).extractLsb' 0 4 ++ (V 9).extractLsb' 7 1,
   (V 9).extractLsb' 2 5, (V 9).extractLsb' 0 2 ++ (V 10).extractLsb' 5 3, (V 10).extractLsb' 0 5,
   (V 11).extractLsb' 3 5, (V 11).extractLsb' 0 3 ++ (V 12).extractLsb' 6 2, (V 12).extractLsb' 1 5,
   (V 12).extractLsb' 0 1 ++ (V 13).extractLsb' 4 4, (V 13).extractLsb' 0 4 ++ (V 14).extractLsb' 7 1,
   (V 14).extractLsb' 2 5, (V 14).extractLsb' 0 2 ++ (V 15).extractLsb' 5 3, (V 15).extractLsb' 0 5]

/-- `a` comes before `b` byte by byte, byte 0 first, each byte unsigned (spec/10_state.md R33). -/
def bytesBefore (a b : BitVec 128) : Prop := ∃ i < 16, (∀ j < i, vbyte a j = vbyte b j) ∧ vbyte a i < vbyte b i

/-- A letter of form B in lower case; any other code as it is. -/
def hexLower (c : Byte) : Byte := if 0x41 ≤ c ∧ c ≤ 0x46 then c + 0x20 else c

/-- The registers a command reads hold the same in two states (the `r` entries of spec/10_state.md R29; the text only
when the length is right, R27). -/
def agreeOnOperands : Instr → State → State → Prop
  | .nop, _, _ => True
  | .b32enc, s, s' => s.v = s'.v
  | .b32dec, s, s' => s.tlen = s'.tlen ∧ (s.tlen = 26 → ∀ k < 26, ch s k = ch s' k)
  | .hexenc, s, s' => s.v = s'.v
  | .hexdec, s, s' => s.tlen = s'.tlen ∧ (s.tlen = 36 → s.t = s'.t)
  | .pack, s, s' => s.tsw = s'.tsw ∧ s.ssc = s'.ssc ∧ s.en = s'.en
  | .unpack, s, s' => s.v = s'.v
  | .sc2st, s, s' => s.psc = s'.psc
  | .sc2pub, s, s' => s.ssc = s'.ssc
  | .make, s, s' => s.tsw = s'.tsw ∧ s.psc = s'.psc ∧ s.en = s'.en
  | .parseb32, s, s' => s.tlen = s'.tlen ∧ (s.tlen = 26 → ∀ k < 26, ch s k = ch s' k)
  | .parsehex, s, s' => s.tlen = s'.tlen ∧ (s.tlen = 36 → s.t = s'.t)
  | .cmp, s, s' => s.v = s'.v ∧ s.w = s'.w

/-- The registers a command writes on success hold the same in two states (the `w` entries of spec/10_state.md R29). -/
def agreeOnResults : Instr → State → State → Prop
  | .nop, _, _ => True
  | .b32enc, t, t' => t.tlen = t'.tlen ∧ ∀ k < 26, ch t k = ch t' k
  | .b32dec, t, t' => t.v = t'.v
  | .hexenc, t, t' => t.tlen = t'.tlen ∧ t.t = t'.t
  | .hexdec, t, t' => t.v = t'.v
  | .pack, t, t' => t.v = t'.v
  | .unpack, t, t' => t.tsw = t'.tsw ∧ t.ssc = t'.ssc ∧ t.en = t'.en
  | .sc2st, t, t' => t.ssc = t'.ssc
  | .sc2pub, t, t' => t.psc = t'.psc
  | .make, t, t' => t.v = t'.v ∧ t.ssc = t'.ssc ∧ t.psc = t'.psc
  | .parseb32, t, t' => t.v = t'.v ∧ t.tsw = t'.tsw ∧ t.ssc = t'.ssc ∧ t.psc = t'.psc ∧ t.en = t'.en
  | .parsehex, t, t' => t.v = t'.v ∧ t.tsw = t'.tsw ∧ t.ssc = t'.ssc ∧ t.psc = t'.psc ∧ t.en = t'.en
  | .cmp, t, t' => t.cmpr = t'.cmpr

/-- The pairs `STATUS/DETAIL` each command can leave (spec/60_exceptions.md R203). -/
def reportsOf : Instr → List (Byte × Byte)
  | .nop => [(0, 0)]
  | .b32enc => [(0, 0)]
  | .b32dec => [(0, 0), (1, 1), (1, 2), (1, 3)]
  | .hexenc => [(0, 0)]
  | .hexdec => [(0, 0), (1, 1), (1, 4), (1, 2)]
  | .pack => [(0, 0), (2, 5)]
  | .unpack => [(0, 0)]
  | .sc2st => [(0, 0), (2, 6)]
  | .sc2pub => [(0, 0), (3, 7)]
  | .make => [(0, 0), (2, 5), (2, 6)]
  | .parseb32 => [(0, 0), (1, 1), (1, 2), (1, 3), (3, 7)]
  | .parsehex => [(0, 0), (1, 1), (1, 4), (1, 2), (3, 7)]
  | .cmp => [(0, 0)]

/-- `a` under the parameter false, `b` under the parameter true: after a success with stored scope 65535 `PSC` is
`0x0000FFFF` in `a`, and `b` is `a` with `PSC` 0; after anything else the two are equal
(spec/93_implementation_defined.md U4). -/
def sameButReadback (a b : State) : Prop :=
  (a.status = 0 ∧ a.ssc = 0xFFFF → a.psc = 0x0000FFFF ∧ b = { a with psc := 0 }) ∧
  (¬(a.status = 0 ∧ a.ssc = 0xFFFF) → b = a)

end Sys2Proof.Claims

open Sys2Proof Sys2Proof.Machine Sys2Proof.Claims

/-! ### Reset and the bus -/

/-- spec/10_state.md R37: after reset every register is zero; so its consequences: the scope bytes of `V` are the reserved
`0x0000`, no character of `T` is legal in either form, and all four decode commands fail with FormatError/LEN. -/
def Obligations.ResetZeroesEveryRegister : Prop :=
  (State.reset.v = 0 ∧ State.reset.w = 0 ∧ State.reset.tsw = 0 ∧ State.reset.psc = 0 ∧ State.reset.ssc = 0 ∧
    State.reset.en = 0 ∧ (∀ k < 36, ch State.reset k = 0) ∧ State.reset.tlen = 0 ∧ State.reset.status = 0 ∧
    State.reset.detail = 0 ∧ State.reset.cmpr = 0) ∧
  State.reset.v.extractLsb' 64 16 = 0 ∧
  (∀ k < 36, b32Value 22 (ch State.reset k) = none ∧ hexValue (ch State.reset k) = none) ∧
  ∀ i ∈ [Instr.b32dec, .hexdec, .parseb32, .parsehex], exec i State.reset = .next (reported State.reset 1 1)

/-- spec/70_reset_and_hazards.md R240: an edge with `rst = 1` gives every register its reset value, and the transaction
presented with it is ignored. The fields `bus` and `rdata` are the model's choice (log entries 1 and 2). -/
def Obligations.AResetEdgeResetsEveryRegister : Prop :=
  ∀ (s : State) (e : Edge) (rest : List Edge), s.bus = e :: rest → e.rst = true →
    ∃ b, step s = .next { State.reset with bus := rest, rdata := b }

/-- spec/20_memory.md R67: an edge without reset and with `sel = 0` changes no register and shows `0x00`. That an empty
list of edges is such an edge is the model's choice (log entry 1). -/
def Obligations.AnEdgeWithoutTransactionChangesNoRegister : Prop :=
  (∀ (s : State) (e : Edge) (rest : List Edge), s.bus = e :: rest → e.rst = false → e.sel = false →
    step s = .next { s with bus := rest, rdata := 0 }) ∧
  ∀ s : State, s.bus = [] → step s = .next { s with rdata := 0 }

/-- spec/20_memory.md R53 with the map of R54: a read returns the byte of the register at that address, and `0x00` for
`CMD` and the reserved addresses. -/
def Obligations.AReadReturnsTheAddressedByte : Prop :=
  ∀ (s : State) (a : Addr), s.memRead a = byteAt s a.toNat

/-- spec/20_memory.md R53, R67: a step on a read transaction shows the addressed byte and changes no register. The fields
`bus` and `rdata` are the model's (log entries 1 and 2). -/
def Obligations.AReadStepChangesNoRegister : Prop :=
  ∀ (s : State) (e : Edge) (rest : List Edge), s.bus = e :: rest → e.rst = false → e.sel = true → e.wr = false →
    step s = .next { s with bus := rest, rdata := byteAt s e.addr.toNat }

/-- spec/20_memory.md R52: a write to a byte of a read-write register stores it and changes no other byte of the register
space; a write to CMD executes the command, or raises IllegalCommand; any other write has no effect.
The clauses on `bus` and `rdata` are about the model's own fields (log entries 1 and 2). -/
def Obligations.AWriteStoresOneByteOrRunsACommand : Prop :=
  ∀ (s : State) (a : Addr) (d : Byte),
    (readWrite a.toNat → ∃ t, memWrite a d s = .next t ∧ t.bus = s.bus ∧ t.rdata = s.rdata ∧
      ∀ b < 128, byteAt t b = if b = a.toNat then d else byteAt s b) ∧
    (a = 0x3C → (∀ i, decode d = .ok i → memWrite a d s = exec i s) ∧
      ((∀ i, decode d ≠ .ok i) → memWrite a d s = .next (reported s 5 8))) ∧
    (¬ readWrite a.toNat → a ≠ 0x3C → memWrite a d s = .next s)

/-- spec/20_memory.md R55: reserved addresses read as `0x00` and ignore writes. -/
def Obligations.ReservedAddressesHoldNoState : Prop :=
  ∀ (s : State) (a : Addr) (d : Byte), reserved a.toNat → s.memRead a = 0 ∧ memWrite a d s = .next s

/-- spec/20_memory.md R56: a write to STATUS, DETAIL or CMPR has no effect at all; a read of CMD returns `0x00` (and a read
executes nothing: see AReadStepChangesNoRegister). -/
def Obligations.ReadOnlyRegistersIgnoreWrites : Prop :=
  ∀ (s : State) (a : Addr) (d : Byte),
    (a.toNat = 0x39 ∨ a.toNat = 0x3A ∨ a.toNat = 0x3B → memWrite a d s = .next s) ∧ s.memRead 0x3C = 0

/-- spec/20_memory.md R61, R67: a step on a write transaction is that write transaction, whole. The fields `bus` and
`rdata` are the model's (log entries 1 and 2). -/
def Obligations.AWriteStepIsTheWriteTransaction : Prop :=
  ∀ (s : State) (e : Edge) (rest : List Edge), s.bus = e :: rest → e.rst = false → e.sel = true → e.wr = true →
    step s = memWrite e.addr e.wdata { s with bus := rest, rdata := 0 }

/-- A step runs the decoded command: when the next edge writes a byte to CMD and the byte decodes to `i`, the step is
`exec i` on the registers, the edge taken from the list (spec/20_memory.md R52; `bus`, `rdata`: log entries 1 and 2). The
same holds of the command that `withFetchWord` places (log entry 5). -/
def Obligations.AStepRunsTheDecodedCommand : Prop :=
  (∀ (s : State) (c : Byte) (i : Instr) (rest : List Edge), s.bus = Edge.write 0x3C c :: rest → decode c = .ok i →
    step s = exec i { s with bus := rest, rdata := 0 }) ∧
  ∀ (s : State) (w : Nat) (i : Instr), decodeTableWord 8 w = some i →
    step (s.withFetchWord 8 w) = exec i { s with rdata := 0 }

/-- spec/60_exceptions.md R208: a command byte `0x0D` to `0xFF` reports IllegalCommand/ILLEGAL_CMD and nothing else. -/
def Obligations.IllegalCodesReportIllegalCommand : Prop :=
  ∀ (c : Byte) (s : State), 0x0D ≤ c.toNat →
    decode c = .error (.illegalCommand c) ∧ memWrite 0x3C c s = .next (reported s 5 8)

/-- spec/70_reset_and_hazards.md R247: the block is never stuck; every transaction, and so every command, completes. -/
def Obligations.EveryStepCompletes : Prop :=
  (∀ s : State, ∃ t, step s = .next t) ∧ ∀ (i : Instr) (s : State), ∃ t, exec i s = .next t

/-- spec/10_state.md R31 to R33: `STATUS`, `DETAIL` and `CMPR` hold only codes that occur after reset. -/
def Obligations.ResetReportsAreLegal : Prop := State.reset.reportsLegal

/-- spec/10_state.md R31 to R33, spec/60_exceptions.md R203: every step keeps `STATUS/DETAIL` a pair some command leaves
and `CMPR` one of the three orders; so `STATUS` 4 and 6 to 255, `DETAIL` 9 to 255 and `CMPR` 3 to 255 never occur. -/
def Obligations.EveryStepKeepsTheReportsLegal : Prop :=
  ∀ s t : State, s.reportsLegal → step s = .next t → t.reportsLegal

/-- spec/10_state.md R31: host reads and writes of any register, and edges without a transaction, change none of STATUS,
DETAIL, CMPR; only a command or a reset does. -/
def Obligations.OnlyACommandChangesTheReports : Prop :=
  ∀ (s t : State), (nextEdge s).rst = false → ¬((nextEdge s).sel = true ∧ (nextEdge s).wr = true ∧ (nextEdge s).addr = 0x3C) →
    step s = .next t → t.status = s.status ∧ t.detail = s.detail ∧ t.cmpr = s.cmpr

/-- spec/70_reset_and_hazards.md R246: two writes to different addresses other than CMD give the same state in either
order. The list of edges is the model's (log entry 1). -/
def Obligations.OperandWritesCommute : Prop :=
  ∀ (s : State) (a b : Addr) (c d : Byte), a ≠ b → a ≠ 0x3C → b ≠ 0x3C →
    ∃ t₁ t₂ u, step { s with bus := [Edge.write a c, Edge.write b d] } = .next t₁ ∧ step t₁ = .next u ∧
      step { s with bus := [Edge.write b d, Edge.write a c] } = .next t₂ ∧ step t₂ = .next u

/-- spec/30_encoding.md R86, spec/20_memory.md R57: the pseudo-instructions LDV, LDW, LDTS, LDPSC, LDSSC and LDEN, byte by
byte, leave in the register the number they name, and nothing else changes. `bus`, `rdata`: log entries 1 and 2. -/
def Obligations.LoadingARegisterByteByByte : Prop :=
  ∀ s : State,
    (∀ h < 2 ^ 128, Sys2Proof.core.run 16 { s with bus := HostLine.edges (.ldv h) } =
      .next { s with bus := [], rdata := 0, v := BitVec.ofNat 128 h }) ∧
    (∀ h < 2 ^ 128, Sys2Proof.core.run 16 { s with bus := HostLine.edges (.ldw h) } =
      .next { s with bus := [], rdata := 0, w := BitVec.ofNat 128 h }) ∧
    (∀ n : Int, n < 2 ^ 64 → Sys2Proof.core.run 8 { s with bus := HostLine.edges (.ldts n) } =
      .next { s with bus := [], rdata := 0, tsw := BitVec.ofInt 64 n }) ∧
    (∀ n : Int, n < 2 ^ 32 → Sys2Proof.core.run 4 { s with bus := HostLine.edges (.ldpsc n) } =
      .next { s with bus := [], rdata := 0, psc := BitVec.ofInt 32 n }) ∧
    (∀ n < 2 ^ 16, Sys2Proof.core.run 2 { s with bus := HostLine.edges (.ldssc n) } =
      .next { s with bus := [], rdata := 0, ssc := BitVec.ofNat 16 n }) ∧
    ∀ h < 2 ^ 64, Sys2Proof.core.run 8 { s with bus := HostLine.edges (.lden h) } =
      .next { s with bus := [], rdata := 0, en := BitVec.ofNat 64 h }

/-! ### The command word -/

/-- spec/30_encoding.md R82: the thirteen words written out from the opcode map decode to their commands, and the codes `0x0D` to
`0xFF` to none. -/
def Obligations.TheOpcodeWordsDecode : Prop :=
  decode 0b00000000#8 = .ok .nop ∧ decode 0b00000001#8 = .ok .b32enc ∧ decode 0b00000010#8 = .ok .b32dec ∧
  decode 0b00000011#8 = .ok .hexenc ∧ decode 0b00000100#8 = .ok .hexdec ∧ decode 0b00000101#8 = .ok .pack ∧
  decode 0b00000110#8 = .ok .unpack ∧ decode 0b00000111#8 = .ok .sc2st ∧ decode 0b00001000#8 = .ok .sc2pub ∧
  decode 0b00001001#8 = .ok .make ∧ decode 0b00001010#8 = .ok .parseb32 ∧ decode 0b00001011#8 = .ok .parsehex ∧
  decode 0b00001100#8 = .ok .cmp ∧ ∀ c : Byte, 0x0D ≤ c.toNat → decode c = .error (.illegalCommand c)

/-- Decode and encode agree in both directions (spec/30_encoding.md R80, R82): the code of a command decodes to it, and a
byte that decodes to a command is its code. -/
def Obligations.DecodeAndEncodeAgree : Prop := ∀ (i : Instr) (c : Byte), decode c = .ok i ↔ c = encode i

/-! ### The character tables -/

/-- spec/30_encoding.md R90: group value `i` is written as the character at index `i` of the alphabet string. -/
def Obligations.TheAlphabetIsTheStatedString : Prop :=
  ∀ g : BitVec 5, (alphabetChars[g.toNat]?).map Char.toNat = some (alphabet g).toNat

/-- spec/30_encoding.md R92: the decode table, for every code and every value of `U_ALIAS_VALUE`, which is 22 here. -/
def Obligations.TheBase32DecodeTable : Prop :=
  hardware.uAliasValue = 22 ∧ ∀ (u : BitVec 5) (c : Byte),
    (0x30 ≤ c.toNat ∧ c.toNat ≤ 0x39 → b32Value u c = some (BitVec.ofNat 5 (c.toNat - 0x30))) ∧
    (∀ r ∈ letterRows u, c.toNat = r.1.toNat ∨ c.toNat = r.2.1.toNat → b32Value u c = some r.2.2) ∧
    (c.toNat ≤ 0x2F ∨ (0x3A ≤ c.toNat ∧ c.toNat ≤ 0x40) ∨ (0x5B ≤ c.toNat ∧ c.toNat ≤ 0x60) ∨ 0x7B ≤ c.toNat →
      b32Value u c = none)

/-- spec/30_encoding.md R96: the hex digit tables, lower case on output, either case on input. -/
def Obligations.TheHexDigitTables : Prop :=
  (∀ d : BitVec 4, (d.toNat ≤ 9 → (hexDigit d).toNat = 0x30 + d.toNat) ∧
    (10 ≤ d.toNat → (hexDigit d).toNat = 0x61 + (d.toNat - 10))) ∧
  ∀ c : Byte,
    (0x30 ≤ c.toNat ∧ c.toNat ≤ 0x39 → hexValue c = some (BitVec.ofNat 4 (c.toNat - 0x30))) ∧
    (0x61 ≤ c.toNat ∧ c.toNat ≤ 0x66 → hexValue c = some (BitVec.ofNat 4 (c.toNat - 0x61 + 10))) ∧
    (0x41 ≤ c.toNat ∧ c.toNat ≤ 0x46 → hexValue c = some (BitVec.ofNat 4 (c.toNat - 0x41 + 10))) ∧
    (c.toNat < 0x30 ∨ (0x39 < c.toNat ∧ c.toNat < 0x41) ∨ (0x46 < c.toNat ∧ c.toNat < 0x61) ∨ 0x66 < c.toNat →
      hexValue c = none)

/-- spec/30_encoding.md R93: which bits of which byte each of the 26 characters carries, and that they are the slice
`g_k` of the value. -/
def Obligations.EachCharacterCarriesItsByteSlice : Prop :=
  ∀ (n : BitVec 128) (k : Nat) (h : k < 26),
    (b32Encode n)[k] = alphabet ((byteSlices n).getD k 0) ∧ (byteSlices n).getD k 0 = group n k

/-- spec/40_base32.md R124, R123: of the texts of 26 valid characters the decoder refuses with OVERFLOW exactly those whose
first group has one of its two top bits set (a first value above 7), and decodes every other. On this hardware the first
characters it lets pass are `0`..`7`, `O`, `o`, `I`, `i`, `L`, `l`. -/
def Obligations.TheOverflowGuardAcceptsValuesUpToSeven : Prop :=
  ∀ x : Vector Byte 36, (∀ k < 26, b32Value 22 (charAt x k) ≠ none) →
    (b32Decode hardware 26 x = .error .overflow ↔ ∃ g, b32Value 22 (charAt x 0) = some g ∧ 7 < g) ∧
    (b32Decode hardware 26 x = .error .overflow ↔ ∃ g, b32Value 22 (charAt x 0) = some g ∧ g.extractLsb' 3 2 ≠ 0) ∧
    (b32Decode hardware 26 x = .error .overflow ↔ (charAt x 0).toNat ∉ guardPasses.map Char.toNat) ∧
    ((∃ n, b32Decode hardware 26 x = .ok n) ↔ (charAt x 0).toNat ∈ guardPasses.map Char.toNat)

/-! ### The commands, one by one -/

/-- spec/44_identifier.md R180: NOP writes `STATUS <- 0`, `DETAIL <- 0` and nothing else. -/
def Obligations.NopClearsTheReport : Prop :=
  decode 0x00 = .ok .nop ∧ ∀ s : State, exec .nop s = .next { s with status := 0, detail := 0 }

/-- spec/40_base32.md R121, R120: B32ENC always succeeds; `T[k] = ALPHABET[g_k]` for k in 0..25, `T[26..35]` kept,
`TLEN = 26`, every other register kept. -/
def Obligations.B32EncWritesTheText : Prop :=
  decode 0x01 = .ok .b32enc ∧ ∀ s : State, ∃ x, exec .b32enc s = .next { s with t := x, tlen := 26, status := 0, detail := 0 } ∧
    (∀ k < 26, charAt x k = alphabet (group s.v k)) ∧ ∀ k, 26 ≤ k → k < 36 → charAt x k = charAt s.t k

/-- spec/40_base32.md R125, R123: B32DEC fails with LEN, then CHAR, then OVERFLOW, and otherwise loads the value whose
groups are the characters' values; on a failure only the report changes. -/
def Obligations.B32DecLoadsTheValueOrReports : Prop :=
  decode 0x02 = .ok .b32dec ∧ ∀ s : State,
    (s.tlen ≠ 26 → exec .b32dec s = .next (reported s 1 1)) ∧
    (s.tlen = 26 → (∃ k < 26, val32 s k = none) → exec .b32dec s = .next (reported s 1 2)) ∧
    (s.tlen = 26 → (∀ k < 26, val32 s k ≠ none) → (∃ g, val32 s 0 = some g ∧ 7 < g) →
      exec .b32dec s = .next (reported s 1 3)) ∧
    (s.tlen = 26 → (∀ k < 26, val32 s k ≠ none) → (∃ g, val32 s 0 = some g ∧ g ≤ 7) →
      ∃ n, readsBase32 s n ∧ exec .b32dec s = .next { s with v := n, status := 0, detail := 0 })

/-- spec/43_hex.md R161, R160: HEXENC always succeeds; each digit at its position in lower case, hyphens at 8, 13, 18, 23,
`TLEN = 36`, every other register kept. -/
def Obligations.HexEncWritesTheText : Prop :=
  decode 0x03 = .ok .hexenc ∧ ∀ s : State, ∃ x, exec .hexenc s = .next { s with t := x, tlen := 36, status := 0, detail := 0 } ∧
    (∀ j < 32, charAt x (digitPos j) = hexDigit (digit s.v j)) ∧ ∀ p ∈ [8, 13, 18, 23], charAt x p = 0x2D

/-- spec/43_hex.md R163, R162: HEXDEC fails with LEN, then GROUP, then CHAR, and otherwise loads the value whose digits are
the characters' values; on a failure only the report changes; every value is reachable. -/
def Obligations.HexDecLoadsTheValueOrReports : Prop :=
  decode 0x04 = .ok .hexdec ∧ ∀ s : State,
    (s.tlen ≠ 36 → exec .hexdec s = .next (reported s 1 1)) ∧
    (s.tlen = 36 → (∃ p ∈ [8, 13, 18, 23], ch s p ≠ 0x2D) → exec .hexdec s = .next (reported s 1 4)) ∧
    (s.tlen = 36 → (∀ p ∈ [8, 13, 18, 23], ch s p = 0x2D) → (∃ j < 32, hexValue (ch s (digitPos j)) = none) →
      exec .hexdec s = .next (reported s 1 2)) ∧
    (s.tlen = 36 → (∀ p ∈ [8, 13, 18, 23], ch s p = 0x2D) → (∀ j < 32, hexValue (ch s (digitPos j)) ≠ none) →
      ∃ n, readsHex s n ∧ exec .hexdec s = .next { s with v := n, status := 0, detail := 0 }) ∧
    ∀ n, ∃ x, exec .hexdec { s with t := x, tlen := 36 } =
      .next { s with t := x, tlen := 36, v := n, status := 0, detail := 0 }

/-- spec/41_packing.md R142: PACK puts `TSW[47:0]`, `SSC`, `EN` side by side into `V`, or reports TS_RANGE. -/
def Obligations.PackFillsTheValueOrReports : Prop :=
  decode 0x05 = .ok .pack ∧ ∀ s : State,
    (s.tsw.extractLsb' 48 16 = 0 → ∃ n, exec .pack s = .next { s with v := n, status := 0, detail := 0 } ∧
      n.extractLsb' 80 48 = s.tsw.extractLsb' 0 48 ∧ n.extractLsb' 64 16 = s.ssc ∧ n.extractLsb' 0 64 = s.en) ∧
    (s.tsw.extractLsb' 48 16 ≠ 0 → exec .pack s = .next (reported s 2 5))

/-- spec/41_packing.md R144: UNPACK always succeeds; `TSW` gets the timestamp field with zero upper bits, `SSC` the scope,
`EN` the entropy; every other register is kept. -/
def Obligations.UnpackFillsTheFields : Prop :=
  decode 0x06 = .ok .unpack ∧ ∀ s : State, ∃ x, exec .unpack s =
      .next { s with tsw := x, ssc := s.v.extractLsb' 64 16, en := s.v.extractLsb' 0 64, status := 0, detail := 0 } ∧
    x.extractLsb' 48 16 = 0 ∧ x.extractLsb' 0 48 = s.v.extractLsb' 80 48

/-- spec/42_scope.md R152, R151: SC2ST stores 65535 for public 0 and every other in-range scope unchanged, and reports
SCOPE_RANGE otherwise. -/
def Obligations.Sc2stStoresTheScopeOrReports : Prop :=
  decode 0x07 = .ok .sc2st ∧ ∀ s : State,
    (s.psc = 0 → exec .sc2st s = .next { s with ssc := 0xFFFF, status := 0, detail := 0 }) ∧
    (0 < s.psc.toNat → s.psc.toNat ≤ 65535 →
      exec .sc2st s = .next { s with ssc := BitVec.ofNat 16 s.psc.toNat, status := 0, detail := 0 }) ∧
    (65535 < s.psc.toNat → exec .sc2st s = .next (reported s 2 6))

/-- spec/42_scope.md R154, R153: on this hardware SC2PUB reads every stored scope but 0 back unchanged, the upper half of
`PSC` zero, and reports SCOPE_RESERVED for 0; under the other parameter value 65535 would be read back as 0. -/
def Obligations.Sc2pubReadsTheScopeBackOrReports : Prop :=
  decode 0x08 = .ok .sc2pub ∧ ∀ s : State,
    (s.ssc = 0 → exec .sc2pub s = .next (reported s 3 7)) ∧
    (s.ssc ≠ 0 → exec .sc2pub s = .next { s with psc := BitVec.ofNat 32 s.ssc.toNat, status := 0, detail := 0 }) ∧
    ∀ u, s.ssc = 0xFFFF → complete s (sc2pubCmd ⟨true, u⟩ s) = { s with psc := 0, status := 0, detail := 0 }

/-- spec/44_identifier.md R176: MAKE reports TS_RANGE, then SCOPE_RANGE, and otherwise packs the identifier, writes the
stored scope and its read-back; the registers then hold an Identifier, and issuing MAKE again changes nothing. Under the
other parameter value an input of 65535 is replaced by 0 and stays 0. -/
def Obligations.MakeBuildsTheIdentifierOrReports : Prop :=
  decode 0x09 = .ok .make ∧ ∀ s : State,
    (s.tsw.extractLsb' 48 16 ≠ 0 → exec .make s = .next (reported s 2 5)) ∧
    (s.tsw.extractLsb' 48 16 = 0 → s.psc.extractLsb' 16 16 ≠ 0 → exec .make s = .next (reported s 2 6)) ∧
    (s.tsw.extractLsb' 48 16 = 0 → s.psc.extractLsb' 16 16 = 0 →
      ∃ n t, t = { s with
          v := n, ssc := storedScope s.psc, psc := (storedScope s.psc).setWidth 32, status := 0, detail := 0 } ∧
        n.extractLsb' 80 48 = s.tsw.extractLsb' 0 48 ∧ n.extractLsb' 64 16 = storedScope s.psc ∧
        n.extractLsb' 0 64 = s.en ∧ exec .make s = .next t ∧ t.isIdentifier hardware ∧ exec .make t = .next t) ∧
    ∀ u, s.tsw.extractLsb' 48 16 = 0 → s.psc = 65535 →
      ∃ t t', complete s (makeCmd ⟨true, u⟩ s) = t ∧ t.psc = 0 ∧ t.ssc = 0xFFFF ∧
        complete t (makeCmd ⟨true, u⟩ t) = t' ∧ t'.psc = 0 ∧ t'.v = t.v ∧ t'.ssc = t.ssc

/-- spec/44_identifier.md R177: PARSEB32 reports LEN, CHAR, OVERFLOW, then SCOPE_RESERVED, and otherwise writes the value
and its fields; on a failure only the report changes. -/
def Obligations.ParseB32LoadsTheIdentifierOrReports : Prop :=
  decode 0x0A = .ok .parseb32 ∧ ∀ s : State,
    (s.tlen ≠ 26 → exec .parseb32 s = .next (reported s 1 1)) ∧
    (s.tlen = 26 → (∃ k < 26, val32 s k = none) → exec .parseb32 s = .next (reported s 1 2)) ∧
    (s.tlen = 26 → (∀ k < 26, val32 s k ≠ none) → (∃ g, val32 s 0 = some g ∧ 7 < g) →
      exec .parseb32 s = .next (reported s 1 3)) ∧
    (s.tlen = 26 → (∀ k < 26, val32 s k ≠ none) → (∃ g, val32 s 0 = some g ∧ g ≤ 7) →
      ∃ n, readsBase32 s n ∧
        (n.extractLsb' 64 16 = 0 → exec .parseb32 s = .next (reported s 3 7)) ∧
        (n.extractLsb' 64 16 ≠ 0 → exec .parseb32 s = .next (parsed s n)))

/-- spec/44_identifier.md R178: PARSEHEX reports LEN, GROUP, CHAR, then SCOPE_RESERVED, and otherwise writes the value and
its fields as PARSEB32 does; on a failure only the report changes. -/
def Obligations.ParseHexLoadsTheIdentifierOrReports : Prop :=
  decode 0x0B = .ok .parsehex ∧ ∀ s : State,
    (s.tlen ≠ 36 → exec .parsehex s = .next (reported s 1 1)) ∧
    (s.tlen = 36 → (∃ p ∈ [8, 13, 18, 23], ch s p ≠ 0x2D) → exec .parsehex s = .next (reported s 1 4)) ∧
    (s.tlen = 36 → (∀ p ∈ [8, 13, 18, 23], ch s p = 0x2D) → (∃ j < 32, hexValue (ch s (digitPos j)) = none) →
      exec .parsehex s = .next (reported s 1 2)) ∧
    (s.tlen = 36 → (∀ p ∈ [8, 13, 18, 23], ch s p = 0x2D) → (∀ j < 32, hexValue (ch s (digitPos j)) ≠ none) →
      ∃ n, readsHex s n ∧
        (n.extractLsb' 64 16 = 0 → exec .parsehex s = .next (reported s 3 7)) ∧
        (n.extractLsb' 64 16 ≠ 0 → exec .parsehex s = .next (parsed s n)))

/-- spec/44_identifier.md R179, spec/10_state.md R33: CMP writes the unsigned order of `V` and `W`, which is their
byte-wise order from byte 0, and never fails. -/
def Obligations.CmpWritesTheUnsignedOrder : Prop :=
  decode 0x0C = .ok .cmp ∧ ∀ s : State,
    (s.v = s.w → exec .cmp s = .next { s with cmpr := 0, status := 0, detail := 0 }) ∧
    (s.v.toNat < s.w.toNat → exec .cmp s = .next { s with cmpr := 1, status := 0, detail := 0 }) ∧
    (s.w.toNat < s.v.toNat → exec .cmp s = .next { s with cmpr := 2, status := 0, detail := 0 }) ∧
    (s.v.toNat < s.w.toNat ↔ bytesBefore s.v s.w) ∧ (s.w.toNat < s.v.toNat ↔ bytesBefore s.w s.v)

/-! ### All commands together -/

/-- spec/60_exceptions.md R200, spec/00_scope.md R15: a failing command writes STATUS and DETAIL and nothing else, and a
command that does not fail leaves both 0. -/
def Obligations.AFailingCommandWritesOnlyItsReport : Prop :=
  ∀ (i : Instr) (s t : State), exec i s = .next t → t.succeeded ∨ (t.status ≠ 0 ∧ t.detail ≠ 0 ∧ s.sameButReport t)

/-- spec/10_state.md R29: which command writes which register; what it does not write it leaves. The clauses on `bus` and
`rdata` are about the model's own fields (log entries 1 and 2). -/
def Obligations.CommandsWriteOnlyTheirRegisters : Prop :=
  ∀ (i : Instr) (s t : State), exec i s = .next t →
    t.w = s.w ∧ t.bus = s.bus ∧ t.rdata = s.rdata ∧
    (i ∉ [Instr.b32dec, .hexdec, .pack, .make, .parseb32, .parsehex] → t.v = s.v) ∧
    (i ∉ [Instr.unpack, .parseb32, .parsehex] → t.tsw = s.tsw) ∧
    (i ∉ [Instr.sc2pub, .make, .parseb32, .parsehex] → t.psc = s.psc) ∧
    (i ∉ [Instr.unpack, .sc2st, .make, .parseb32, .parsehex] → t.ssc = s.ssc) ∧
    (i ∉ [Instr.unpack, .parseb32, .parsehex] → t.en = s.en) ∧
    (i ∉ [Instr.b32enc, .hexenc] → t.t = s.t ∧ t.tlen = s.tlen) ∧
    (i ≠ .hexenc → ∀ k, 26 ≤ k → k < 36 → ch t k = ch s k) ∧
    (i ≠ .cmp → t.cmpr = s.cmpr)

/-- spec/10_state.md R29, R36: a command's report and results depend on the registers it reads and on nothing else; the
Base32 decoders never look at `T[26..35]`, and no decoder looks at a character when the length is wrong (R27). -/
def Obligations.CommandsReadOnlyTheirRegisters : Prop :=
  ∀ (i : Instr) (s s' : State), agreeOnOperands i s s' →
    ∃ t t', exec i s = .next t ∧ exec i s' = .next t' ∧ t.status = t'.status ∧ t.detail = t'.detail ∧
      (t.status = 0 → agreeOnResults i t t')

/-- spec/60_exceptions.md R203, R209: which command can report what; so none reports EntropySourceError. -/
def Obligations.EachCommandReportsOnlyItsErrors : Prop :=
  ∀ (i : Instr) (s t : State), exec i s = .next t → (t.status, t.detail) ∈ reportsOf i

/-- spec/60_exceptions.md R207: reissuing a failed command on unchanged registers fails the same way. -/
def Obligations.AReissuedFailureFailsTheSameWay : Prop :=
  ∀ (i : Instr) (s t : State), exec i s = .next t → t.status ≠ 0 → exec i t = .next t

/-- spec/70_reset_and_hazards.md R242: each command on the reset contents. -/
def Obligations.CommandsOnTheResetState : Prop :=
  exec .nop State.reset = .next State.reset ∧
  (∃ x, exec .b32enc State.reset = .next { State.reset with t := x, tlen := 26 } ∧ ∀ k < 26, charAt x k = 0x30) ∧
  (∃ x, exec .hexenc State.reset = .next { State.reset with t := x, tlen := 36 } ∧
    (∀ j < 32, charAt x (digitPos j) = 0x30) ∧ ∀ p ∈ [8, 13, 18, 23], charAt x p = 0x2D) ∧
  exec .unpack State.reset = .next State.reset ∧ exec .pack State.reset = .next State.reset ∧
  exec .cmp State.reset = .next State.reset ∧
  exec .sc2st State.reset = .next { State.reset with ssc := 0xFFFF } ∧
  exec .make State.reset =
    .next { State.reset with v := 0x000000000000FFFF0000000000000000, ssc := 0xFFFF, psc := 0x0000FFFF } ∧
  exec .sc2pub State.reset = .next (reported State.reset 3 7) ∧
  ∀ i ∈ [Instr.b32dec, .hexdec, .parseb32, .parsehex], exec i State.reset = .next (reported State.reset 1 1)

/-! ### The laws of the codecs -/

/-- spec/40_base32.md R126: `decode(encode(b)) == b`, whatever the parameters are and whatever the buffer held. -/
def Obligations.Base32DecodesWhatItEncodes : Prop :=
  ∀ (cfg : Config) (n : BitVec 128) (x : Vector Byte 36), b32Decode cfg 26 (putText x (b32Encode n)) = .ok n

/-- spec/40_base32.md R126: `encode(decode(s))` is the canonical form of every `s` that decodes. -/
def Obligations.Base32EncodesTheCanonicalForm : Prop :=
  ∀ (cfg : Config) (x : Vector Byte 36) (n : BitVec 128), b32Decode cfg 26 x = .ok n →
    ∀ (k : Nat) (h : k < 26), ∃ g, b32Value cfg.uAliasValue (charAt x k) = some g ∧ (b32Encode n)[k] = alphabet g

/-- spec/40_base32.md R126, spec/43_hex.md R164, as commands: B32ENC then B32DEC, and HEXENC then HEXDEC, succeed and leave
`V` (and everything else) as it was after the first. -/
def Obligations.EncodeThenDecodeLeavesTheValue : Prop :=
  ∀ s : State,
    (∃ t, exec .b32enc s = .next t ∧ exec .b32dec t = .next t ∧ t.v = s.v ∧ t.status = 0) ∧
    ∃ t, exec .hexenc s = .next t ∧ exec .hexdec t = .next t ∧ t.v = s.v ∧ t.status = 0

/-- spec/43_hex.md R164: `hex_decode(36, hex_encode(n)) = Ok(n)`, and conversely re-encoding gives the text in lower
case. -/
def Obligations.HexRoundTrips : Prop :=
  (∀ n : BitVec 128, hexDecode 36 (hexEncode n) = .ok n) ∧
  ∀ (x : Vector Byte 36) (n : BitVec 128), hexDecode 36 x = .ok n →
    ∀ k < 36, charAt (hexEncode n) k = hexLower (charAt x k)

/-- spec/41_packing.md R145: pack and unpack are inverse; as commands, PACK (when it succeeds) then UNPACK leaves TSW, SSC,
EN, and UNPACK then PACK succeeds and leaves V. -/
def Obligations.PackAndUnpackAreInverse : Prop :=
  (∀ ts sc en, unpack (pack ts sc en) = (ts, sc, en)) ∧
  (∀ n : BitVec 128, pack (unpack n).1 (unpack n).2.1 (unpack n).2.2 = n) ∧
  (∀ s : State, s.tsw.extractLsb' 48 16 = 0 →
    ∃ t u, exec .pack s = .next t ∧ exec .unpack t = .next u ∧ u.tsw = s.tsw ∧ u.ssc = s.ssc ∧ u.en = s.en) ∧
  ∀ s : State, ∃ t u, exec .unpack s = .next t ∧ exec .pack t = .next u ∧ u.status = 0 ∧ u.v = s.v

/-- spec/42_scope.md R155: the range of `to_stored` and the round trips, under both values of the read-back parameter;
public 0 is never read back when it is false. -/
def Obligations.TheScopeMapsRoundTrip : Prop :=
  (∀ p : BitVec 32, (∃ x, toStored p = .ok x) ↔ p.toNat ≤ 65535) ∧
  (∀ x : BitVec 16, (∃ p, toStored p = .ok x) ↔ 1 ≤ x.toNat) ∧
  (∀ u : BitVec 5, ∀ p : BitVec 32, 1 ≤ p.toNat → p.toNat ≤ 65535 →
    ∃ x q, toStored p = .ok x ∧ toPublic ⟨false, u⟩ x = .ok q ∧ q.toNat = p.toNat) ∧
  (∀ u : BitVec 5, ∃ x q, toStored 0 = .ok x ∧ toPublic ⟨false, u⟩ x = .ok q ∧ q.toNat = 65535) ∧
  (∀ u : BitVec 5, ∀ x : BitVec 16, 1 ≤ x.toNat →
    ∃ q, toPublic ⟨false, u⟩ x = .ok q ∧ toStored (q.setWidth 32) = .ok x) ∧
  (∀ u : BitVec 5, ∀ p : BitVec 32, p.toNat ≤ 65534 →
    ∃ x q, toStored p = .ok x ∧ toPublic ⟨true, u⟩ x = .ok q ∧ q.toNat = p.toNat) ∧
  (∀ u : BitVec 5, ∃ x q, toStored 65535 = .ok x ∧ toPublic ⟨true, u⟩ x = .ok q ∧ q.toNat = 0) ∧
  ∀ (u : BitVec 5) (x q : BitVec 16), toPublic ⟨false, u⟩ x = .ok q → q ≠ 0

/-- spec/30_encoding.md R98: both text forms preserve the order of the values, as numbers or byte by byte. -/
def Obligations.BothTextFormsPreserveOrder : Prop :=
  ∀ a b : BitVec 128, (a.toNat < b.toNat ↔ bytesBefore a b) ∧
    (a.toNat < b.toNat ↔ textLt (b32Encode a).toList (b32Encode b).toList = true) ∧
    (a.toNat < b.toNat ↔ textLt (hexEncode a).toList (hexEncode b).toList = true)

/-- spec/40_base32.md R127: the form A of an earlier timestamp is the smaller string, whatever scope and entropy are. -/
def Obligations.TheTextSortsByTimestamp : Prop :=
  ∀ (ts ts' : BitVec 48) (sc sc' : BitVec 16) (en en' : BitVec 64), ts.toNat < ts'.toNat →
    textLt (b32Encode (pack ts sc en)).toList (b32Encode (pack ts' sc' en')).toList = true

/-- spec/30_encoding.md R94: the first ten characters of form A depend on the timestamp alone, and different timestamps
differ within them. -/
def Obligations.TheFirstTenCharactersAreTheTimestamp : Prop :=
  ∀ (ts ts' : BitVec 48) (sc sc' : BitVec 16) (en en' : BitVec 64),
    (∀ (k : Nat) (h : k < 10),
      (b32Encode (pack ts sc en))[k]'(by omega) = (b32Encode (pack ts sc' en'))[k]'(by omega)) ∧
    (ts ≠ ts' → ∃ (k : Nat) (h : k < 10),
      (b32Encode (pack ts sc en))[k]'(by omega) ≠ (b32Encode (pack ts' sc' en'))[k]'(by omega))

/-! ### The identifier paths -/

/-- spec/10_state.md R38: after a successful MAKE, PARSEB32 or PARSEHEX the registers hold one Identifier. -/
def Obligations.IdentifierCommandsLeaveAnIdentifier : Prop :=
  ∀ (i : Instr) (s t : State), i ∈ [Instr.make, .parseb32, .parsehex] → exec i s = .next t → t.status = 0 →
    t.isIdentifier hardware

/-- spec/44_identifier.md R184: after a successful MAKE, B32ENC then PARSEB32, and HEXENC then PARSEHEX, succeed and leave
the five registers as MAKE left them. -/
def Obligations.AnIdentifierSurvivesBothTextForms : Prop :=
  ∀ s : State, s.tsw.extractLsb' 48 16 = 0 → s.psc.extractLsb' 16 16 = 0 →
    ∃ m, exec .make s = .next m ∧ m.status = 0 ∧
      (∃ t u, exec .b32enc m = .next t ∧ exec .parseb32 t = .next u ∧ u.status = 0 ∧
        u.v = m.v ∧ u.tsw = m.tsw ∧ u.ssc = m.ssc ∧ u.psc = m.psc ∧ u.en = m.en) ∧
      ∃ t u, exec .hexenc m = .next t ∧ exec .parsehex t = .next u ∧ u.status = 0 ∧
        u.v = m.v ∧ u.tsw = m.tsw ∧ u.ssc = m.ssc ∧ u.psc = m.psc ∧ u.en = m.en

/-- spec/44_identifier.md R184, last sentence: the same round trip under every value of the parameters, on the commands'
pseudocode. -/
def Obligations.AnIdentifierSurvivesUnderEveryParameter : Prop :=
  ∀ (cfg : Config) (s m : State), makeCmd cfg s = .ok m →
    (∃ t u, b32encCmd m = .ok t ∧ parseb32Cmd cfg t = .ok u ∧
      u.v = m.v ∧ u.tsw = m.tsw ∧ u.ssc = m.ssc ∧ u.psc = m.psc ∧ u.en = m.en) ∧
    ∃ t u, hexencCmd m = .ok t ∧ parsehexCmd cfg t = .ok u ∧
      u.v = m.v ∧ u.tsw = m.tsw ∧ u.ssc = m.ssc ∧ u.psc = m.psc ∧ u.en = m.en

/-- spec/93_implementation_defined.md U4: the read-back parameter changes the `PSC` that SC2PUB, MAKE, PARSEB32 and PARSEHEX
write when the stored scope is 65535, `0x0000FFFF` when it is false and 0 when it is true, and nothing else. (B32DEC has a
Config for the other parameter and does not look at this one; no other command has one.) -/
def Obligations.TheReadbackParameterTouchesOnlyPsc : Prop :=
  ∀ (u : BitVec 5) (s : State),
    sameButReadback (complete s (sc2pubCmd ⟨false, u⟩ s)) (complete s (sc2pubCmd ⟨true, u⟩ s)) ∧
    sameButReadback (complete s (makeCmd ⟨false, u⟩ s)) (complete s (makeCmd ⟨true, u⟩ s)) ∧
    sameButReadback (complete s (parseb32Cmd ⟨false, u⟩ s)) (complete s (parseb32Cmd ⟨true, u⟩ s)) ∧
    sameButReadback (complete s (parsehexCmd ⟨false, u⟩ s)) (complete s (parsehexCmd ⟨true, u⟩ s)) ∧
    complete s (b32decCmd ⟨true, u⟩ s) = complete s (b32decCmd ⟨false, u⟩ s)

/-- spec/92_eei_decisions.md D2: `U_ALIAS_VALUE` matters to texts with a `U` or `u` among the 26 characters only. -/
def Obligations.TheAliasParameterTouchesOnlyU : Prop :=
  ∀ (r : Bool) (u u' : BitVec 5) (len : Byte) (x : Vector Byte 36),
    (∀ k < 26, charAt x k ≠ 0x55 ∧ charAt x k ≠ 0x75) → b32Decode ⟨r, u⟩ len x = b32Decode ⟨r, u'⟩ len x
end

