-- ==== Sys2Proof/Laws/Bits.lean ====
section
/-! SUPPORT. The laws of bytes and digits: a byte written is the byte read back and no other byte changes; a value is
determined by its digits; digit `k` of digits put together is the `k`-th digit. -/

namespace Sys2Proof.Machine

theorem getLsbD_setByteOf {n : Nat} (x : BitVec n) (i : Nat) (b : Byte) (j : Nat) (hj : j < n) :
    (setByteOf x i b).getLsbD j =
      if n - 8 * (i + 1) ≤ j ∧ j < n - 8 * (i + 1) + 8 then b.getLsbD (j - (n - 8 * (i + 1))) else x.getLsbD j := by
  simp only [setByteOf, BitVec.getLsbD_or, BitVec.getLsbD_and, BitVec.getLsbD_not, BitVec.getLsbD_shiftLeft,
    BitVec.getLsbD_setWidth, hj, decide_true, Bool.true_and]
  generalize n - 8 * (i + 1) = lo
  by_cases h1 : lo ≤ j
  · by_cases h2 : j < lo + 8
    · have h3 : j - lo < 8 := by omega
      have h4 : (255#n).getLsbD (j - lo) = true := by
        have : ∀ m : Nat, m < 8 → (255 : Nat).testBit m = true := by decide
        simp [BitVec.getLsbD_ofNat, this _ h3]; omega
      simp [h1, h2, h4, show ¬ j < lo by omega, show j - lo < n by omega]
    · have h4 : (255#n).getLsbD (j - lo) = false := by
        have : (255 : Nat).testBit (j - lo) = false :=
          Nat.testBit_lt_two_pow (Nat.lt_of_lt_of_le (by decide : 255 < 2 ^ 8) (Nat.pow_le_pow_right (by decide) (by omega)))
        simp [BitVec.getLsbD_ofNat, this]
      have h5 : b.getLsbD (j - lo) = false := BitVec.getLsbD_of_ge _ _ (by omega)
      simp [h1, h2, h4, h5]
  · simp [h1, show j < lo by omega]

/-- A byte written is the byte read back (spec/20_memory.md R61). -/
theorem byteOf_setByteOf_self {n : Nat} (x : BitVec n) (i : Nat) (b : Byte) (h : 8 * (i + 1) ≤ n) :
    byteOf (setByteOf x i b) i = b := by
  apply BitVec.eq_of_getLsbD_eq
  intro j hj
  simp only [byteOf, BitVec.getLsbD_extractLsb', hj, decide_true, Bool.true_and]
  rw [getLsbD_setByteOf _ _ _ _ (by omega), if_pos (by omega)]
  congr 1; omega

/-- The other bytes of the register are kept (spec/70_reset_and_hazards.md R244). -/
theorem byteOf_setByteOf_ne {n : Nat} (x : BitVec n) (i k : Nat) (b : Byte) (hi : 8 * (i + 1) ≤ n)
    (hk : 8 * (k + 1) ≤ n) (hne : k ≠ i) : byteOf (setByteOf x i b) k = byteOf x k := by
  apply BitVec.eq_of_getLsbD_eq
  intro j hj
  simp only [byteOf, BitVec.getLsbD_extractLsb', hj, decide_true, Bool.true_and]
  rw [getLsbD_setByteOf _ _ _ _ (by omega), if_neg (by omega)]

/-- A register is determined by its bytes. -/
theorem eq_of_byteOf_eq {k : Nat} {n : Nat} (x y : BitVec n) (hn : n = 8 * k) (h : ∀ i < k, byteOf x i = byteOf y i) :
    x = y := by
  apply BitVec.eq_of_getLsbD_eq
  intro j hj
  have hi : k - 1 - j / 8 < k := by omega
  have := congrArg (fun b : Byte => b.getLsbD (j % 8)) (h _ hi)
  simp only [byteOf, BitVec.getLsbD_extractLsb', Nat.mod_lt _ (by decide : 8 > 0), decide_true, Bool.true_and] at this
  have e : n - 8 * (k - 1 - j / 8 + 1) + j % 8 = j := by omega
  rwa [e] at this

/-- Bit `j` of `k` digits put together is bit `j % w` of digit `k - 1 - j / w`. -/
theorem getLsbD_concatDigits {w : Nat} (hw : 0 < w) (f : Nat → BitVec w) (k j : Nat) (hj : j < w * k) :
    (concatDigits w f k).getLsbD j = (f (k - 1 - j / w)).getLsbD (j % w) := by
  induction k generalizing j with
  | zero => simp at hj
  | succ k ih =>
    simp only [concatDigits, BitVec.getLsbD_append]
    by_cases h : j < w
    · simp [h, Nat.div_eq_of_lt h, Nat.mod_eq_of_lt h]
    · have hk : w * (k + 1) = w * k + w := Nat.mul_succ w k
      have hge : w ≤ j := by omega
      have hd : j / w = (j - w) / w + 1 := by
        rw [← Nat.sub_add_cancel hge, Nat.add_div_right _ hw, Nat.sub_add_cancel hge]
      have hm : j % w = (j - w) % w := (Nat.mod_eq_sub_mod hge)
      rw [if_neg h, ih (j - w) (by omega), hm, hd]
      congr 2; omega

/-- Digit `i` of digits put together is the `i`-th digit. -/
theorem extract_concatDigits {w : Nat} (hw : 0 < w) (f : Nat → BitVec w) (k i : Nat) (hi : i < k) :
    (concatDigits w f k).extractLsb' (w * (k - 1 - i)) w = f i := by
  apply BitVec.eq_of_getLsbD_eq
  intro j hj
  have hlt : w * (k - 1 - i) + j < w * k := by
    have : w * (k - 1 - i) + w ≤ w * k := by
      rw [← Nat.mul_succ]; exact Nat.mul_le_mul_left w (by omega)
    omega
  simp only [BitVec.getLsbD_extractLsb', hj, decide_true, Bool.true_and]
  rw [getLsbD_concatDigits hw f k _ hlt, Nat.mul_add_div hw, Nat.mul_add_mod, Nat.div_eq_of_lt hj, Nat.mod_eq_of_lt hj]
  congr 2; omega

/-- A value of `w·k` bits is its `k` digits put together. -/
theorem concatDigits_extract {w : Nat} (hw : 0 < w) (k : Nat) (x : BitVec (w * k)) :
    concatDigits w (fun i => x.extractLsb' (w * (k - 1 - i)) w) k = x := by
  apply BitVec.eq_of_getLsbD_eq
  intro j hj
  rw [getLsbD_concatDigits hw _ k j hj]
  have hm : j % w < w := Nat.mod_lt _ hw
  have hq : j / w < k := Nat.div_lt_of_lt_mul hj
  simp only [BitVec.getLsbD_extractLsb', hm, decide_true, Bool.true_and]
  congr 1
  have hi : k - 1 - (k - 1 - j / w) = j / w := by generalize j / w = q at hq ⊢; omega
  rw [hi]
  exact Nat.div_add_mod j w

/-- Digits put together depend on the digits only. -/
theorem concatDigits_congr {w : Nat} (f g : Nat → BitVec w) (k : Nat) (h : ∀ i < k, f i = g i) :
    concatDigits w f k = concatDigits w g k := by
  induction k with
  | zero => rfl
  | succ k ih => simp only [concatDigits]; rw [ih fun i hi => h i (by omega), h k (by omega)]

/-- Appending a digit: the number is the old one shifted up, plus the digit. -/
theorem toNat_concatDigits_succ {w : Nat} (f : Nat → BitVec w) (k : Nat) :
    (concatDigits w f (k + 1)).toNat = (concatDigits w f k).toNat * 2 ^ w + (f k).toNat := by
  have h : (concatDigits w f (k + 1)).toNat = (concatDigits w f k ++ f k).toNat := rfl
  rw [h, BitVec.toNat_append, ← Nat.shiftLeft_add_eq_or_of_lt (f k).isLt, Nat.shiftLeft_eq]

/-- Digits put together are equal as numbers exactly when every digit is. -/
theorem concatDigits_eq_iff {w : Nat} (f g : Nat → BitVec w) (k : Nat) :
    (concatDigits w f k).toNat = (concatDigits w g k).toNat ↔ ∀ i < k, f i = g i := by
  induction k with
  | zero => simp [concatDigits]
  | succ k ih =>
    rw [toNat_concatDigits_succ, toNat_concatDigits_succ]
    have hf := (f k).isLt
    have hg := (g k).isLt
    constructor
    · intro h i hi
      have hq : (concatDigits w f k).toNat = (concatDigits w g k).toNat := by
        have := congrArg (· / 2 ^ w) h
        simpa [Nat.mul_comm _ (2 ^ w), Nat.mul_add_div (Nat.two_pow_pos w), Nat.div_eq_of_lt hf, Nat.div_eq_of_lt hg] using this
      rcases Nat.lt_succ_iff_lt_or_eq.mp hi with h1 | rfl
      · exact ih.mp hq i h1
      · exact BitVec.eq_of_toNat_eq (by rw [hq] at h; omega)
    · intro h
      rw [ih.mpr fun i hi => h i (by omega), h k (by omega)]

/-- The order of digits put together is the order of the first digits that differ. -/
theorem concatDigits_lt_iff {w : Nat} (f g : Nat → BitVec w) (k : Nat) :
    (concatDigits w f k).toNat < (concatDigits w g k).toNat ↔ ∃ i < k, (∀ j < i, f j = g j) ∧ f i < g i := by
  induction k with
  | zero => simp [concatDigits]
  | succ k ih =>
    rw [toNat_concatDigits_succ, toNat_concatDigits_succ]
    have hf := (f k).isLt
    have hg := (g k).isLt
    rcases Nat.lt_trichotomy (concatDigits w f k).toNat (concatDigits w g k).toNat with h | h | h
    · refine iff_of_true ?_ ?_
      · have := Nat.mul_le_mul_right (2 ^ w) (Nat.succ_le_of_lt h)
        rw [Nat.succ_mul] at this
        omega
      · obtain ⟨i, hi, h1, h2⟩ := ih.mp h
        exact ⟨i, by omega, h1, h2⟩
    · have heq := (concatDigits_eq_iff f g k).mp h
      rw [h]
      constructor
      · intro hl
        exact ⟨k, by omega, heq, BitVec.lt_def.mpr (by omega)⟩
      · rintro ⟨i, hi, _, h2⟩
        rcases Nat.lt_succ_iff_lt_or_eq.mp hi with h1 | rfl
        · rw [heq i h1] at h2; exact absurd h2 (BitVec.lt_irrefl _)
        · have := BitVec.lt_def.mp h2; omega
    · refine iff_of_false ?_ ?_
      · have := Nat.mul_le_mul_right (2 ^ w) (Nat.succ_le_of_lt h)
        rw [Nat.succ_mul] at this
        omega
      · rintro ⟨i, hi, h1, h2⟩
        rcases Nat.lt_succ_iff_lt_or_eq.mp hi with h3 | rfl
        · exact absurd (ih.mpr ⟨i, h3, h1, h2⟩) (by omega)
        · exact absurd ((concatDigits_eq_iff f g i).mpr h1) (by omega)

end Sys2Proof.Machine
end

