-- ==== Sys2Proof/Laws/State.lean ====
section
/-! SUPPORT. One lemma per field of State per named update, so that no later proof unfolds an update. -/

namespace Sys2Proof.Machine

/-! ### report -/

@[simp] theorem State.report_v (s : State) (a b : Byte) : (s.report a b).v = s.v := rfl
@[simp] theorem State.report_w (s : State) (a b : Byte) : (s.report a b).w = s.w := rfl
@[simp] theorem State.report_tsw (s : State) (a b : Byte) : (s.report a b).tsw = s.tsw := rfl
@[simp] theorem State.report_psc (s : State) (a b : Byte) : (s.report a b).psc = s.psc := rfl
@[simp] theorem State.report_ssc (s : State) (a b : Byte) : (s.report a b).ssc = s.ssc := rfl
@[simp] theorem State.report_en (s : State) (a b : Byte) : (s.report a b).en = s.en := rfl
@[simp] theorem State.report_t (s : State) (a b : Byte) : (s.report a b).t = s.t := rfl
@[simp] theorem State.report_tlen (s : State) (a b : Byte) : (s.report a b).tlen = s.tlen := rfl
@[simp] theorem State.report_status (s : State) (a b : Byte) : (s.report a b).status = a := rfl
@[simp] theorem State.report_detail (s : State) (a b : Byte) : (s.report a b).detail = b := rfl
@[simp] theorem State.report_cmpr (s : State) (a b : Byte) : (s.report a b).cmpr = s.cmpr := rfl
@[simp] theorem State.report_bus (s : State) (a b : Byte) : (s.report a b).bus = s.bus := rfl
@[simp] theorem State.report_rdata (s : State) (a b : Byte) : (s.report a b).rdata = s.rdata := rfl

/-! ### succeed -/

@[simp] theorem State.succeed_v (s : State) : (s.succeed).v = s.v := rfl
@[simp] theorem State.succeed_w (s : State) : (s.succeed).w = s.w := rfl
@[simp] theorem State.succeed_tsw (s : State) : (s.succeed).tsw = s.tsw := rfl
@[simp] theorem State.succeed_psc (s : State) : (s.succeed).psc = s.psc := rfl
@[simp] theorem State.succeed_ssc (s : State) : (s.succeed).ssc = s.ssc := rfl
@[simp] theorem State.succeed_en (s : State) : (s.succeed).en = s.en := rfl
@[simp] theorem State.succeed_t (s : State) : (s.succeed).t = s.t := rfl
@[simp] theorem State.succeed_tlen (s : State) : (s.succeed).tlen = s.tlen := rfl
@[simp] theorem State.succeed_status (s : State) : (s.succeed).status = 0 := rfl
@[simp] theorem State.succeed_detail (s : State) : (s.succeed).detail = 0 := rfl
@[simp] theorem State.succeed_cmpr (s : State) : (s.succeed).cmpr = s.cmpr := rfl
@[simp] theorem State.succeed_bus (s : State) : (s.succeed).bus = s.bus := rfl
@[simp] theorem State.succeed_rdata (s : State) : (s.succeed).rdata = s.rdata := rfl

/-! ### raise -/

@[simp] theorem State.raise_v (s : State) (c : Check) : (s.raise c).v = s.v := rfl
@[simp] theorem State.raise_w (s : State) (c : Check) : (s.raise c).w = s.w := rfl
@[simp] theorem State.raise_tsw (s : State) (c : Check) : (s.raise c).tsw = s.tsw := rfl
@[simp] theorem State.raise_psc (s : State) (c : Check) : (s.raise c).psc = s.psc := rfl
@[simp] theorem State.raise_ssc (s : State) (c : Check) : (s.raise c).ssc = s.ssc := rfl
@[simp] theorem State.raise_en (s : State) (c : Check) : (s.raise c).en = s.en := rfl
@[simp] theorem State.raise_t (s : State) (c : Check) : (s.raise c).t = s.t := rfl
@[simp] theorem State.raise_tlen (s : State) (c : Check) : (s.raise c).tlen = s.tlen := rfl
@[simp] theorem State.raise_status (s : State) (c : Check) : (s.raise c).status = c.kind.code := rfl
@[simp] theorem State.raise_detail (s : State) (c : Check) : (s.raise c).detail = c.code := rfl
@[simp] theorem State.raise_cmpr (s : State) (c : Check) : (s.raise c).cmpr = s.cmpr := rfl
@[simp] theorem State.raise_bus (s : State) (c : Check) : (s.raise c).bus = s.bus := rfl
@[simp] theorem State.raise_rdata (s : State) (c : Check) : (s.raise c).rdata = s.rdata := rfl

/-! ### takeEdge -/

@[simp] theorem State.takeEdge_v (s : State) : (s.takeEdge).v = s.v := rfl
@[simp] theorem State.takeEdge_w (s : State) : (s.takeEdge).w = s.w := rfl
@[simp] theorem State.takeEdge_tsw (s : State) : (s.takeEdge).tsw = s.tsw := rfl
@[simp] theorem State.takeEdge_psc (s : State) : (s.takeEdge).psc = s.psc := rfl
@[simp] theorem State.takeEdge_ssc (s : State) : (s.takeEdge).ssc = s.ssc := rfl
@[simp] theorem State.takeEdge_en (s : State) : (s.takeEdge).en = s.en := rfl
@[simp] theorem State.takeEdge_t (s : State) : (s.takeEdge).t = s.t := rfl
@[simp] theorem State.takeEdge_tlen (s : State) : (s.takeEdge).tlen = s.tlen := rfl
@[simp] theorem State.takeEdge_status (s : State) : (s.takeEdge).status = s.status := rfl
@[simp] theorem State.takeEdge_detail (s : State) : (s.takeEdge).detail = s.detail := rfl
@[simp] theorem State.takeEdge_cmpr (s : State) : (s.takeEdge).cmpr = s.cmpr := rfl
@[simp] theorem State.takeEdge_bus (s : State) : (s.takeEdge).bus = s.bus.tail := rfl
@[simp] theorem State.takeEdge_rdata (s : State) : (s.takeEdge).rdata = s.rdata := rfl

/-! ### resetRegs -/

@[simp] theorem State.resetRegs_v (s : State) : (s.resetRegs).v = 0 := rfl
@[simp] theorem State.resetRegs_w (s : State) : (s.resetRegs).w = 0 := rfl
@[simp] theorem State.resetRegs_tsw (s : State) : (s.resetRegs).tsw = 0 := rfl
@[simp] theorem State.resetRegs_psc (s : State) : (s.resetRegs).psc = 0 := rfl
@[simp] theorem State.resetRegs_ssc (s : State) : (s.resetRegs).ssc = 0 := rfl
@[simp] theorem State.resetRegs_en (s : State) : (s.resetRegs).en = 0 := rfl
@[simp] theorem State.resetRegs_t (s : State) : (s.resetRegs).t = Vector.replicate 36 0 := rfl
@[simp] theorem State.resetRegs_tlen (s : State) : (s.resetRegs).tlen = 0 := rfl
@[simp] theorem State.resetRegs_status (s : State) : (s.resetRegs).status = 0 := rfl
@[simp] theorem State.resetRegs_detail (s : State) : (s.resetRegs).detail = 0 := rfl
@[simp] theorem State.resetRegs_cmpr (s : State) : (s.resetRegs).cmpr = 0 := rfl
@[simp] theorem State.resetRegs_bus (s : State) : (s.resetRegs).bus = s.bus := rfl
@[simp] theorem State.resetRegs_rdata (s : State) : (s.resetRegs).rdata = s.rdata := rfl

/-! ### writeLoc: the fields no byte write changes -/

@[simp] theorem State.writeLoc_status (s : State) (l : Loc) (b : Byte) : (s.writeLoc l b).status = s.status := by
  cases l <;> rfl
@[simp] theorem State.writeLoc_detail (s : State) (l : Loc) (b : Byte) : (s.writeLoc l b).detail = s.detail := by
  cases l <;> rfl
@[simp] theorem State.writeLoc_cmpr (s : State) (l : Loc) (b : Byte) : (s.writeLoc l b).cmpr = s.cmpr := by
  cases l <;> rfl
@[simp] theorem State.writeLoc_bus (s : State) (l : Loc) (b : Byte) : (s.writeLoc l b).bus = s.bus := by
  cases l <;> rfl
@[simp] theorem State.writeLoc_rdata (s : State) (l : Loc) (b : Byte) : (s.writeLoc l b).rdata = s.rdata := by
  cases l <;> rfl

end Sys2Proof.Machine
end

