-- ==== Sys2Proof/Laws/Text.lean ====
section
/-! SUPPORT. The laws of the text forms: characters of a written text, digits and their characters, a value and its
groups. -/

namespace Sys2Proof.Machine

/-! ### Characters of the text buffer -/

theorem charAt_eq (t : Vector Byte 36) (k : Nat) (h : k < 36) : charAt t k = t[k] := by simp [charAt, h]

@[simp] theorem charAt_putText_lt {m : Nat} (t : Vector Byte 36) (s : Vector Byte m) (k : Nat) (hk : k < m)
    (h36 : k < 36) : charAt (putText t s) k = s[k] := by simp [charAt, putText, hk, h36]

@[simp] theorem charAt_putText_ge {m : Nat} (t : Vector Byte 36) (s : Vector Byte m) (k : Nat) (hk : m ≤ k) :
    charAt (putText t s) k = charAt t k := by
  by_cases h : k < 36
  · simp [charAt, putText, h, Nat.not_lt.mpr hk]
  · simp [charAt, h]

/-! ### Characters and digits -/

/-- The decoder's value of an alphabet character is its index, whatever `U_ALIAS_VALUE` is (spec/40_base32.md R126). -/
@[simp] theorem b32Value_alphabet (u g : BitVec 5) : b32Value u (alphabet g) = some g := by
  have key : ∀ g : BitVec 5, foldCase (alphabet g) = alphabet g ∧ alphabet g ≠ ascii 'I' ∧ alphabet g ≠ ascii 'L' ∧
      alphabet g ≠ ascii 'O' ∧ alphabet g ≠ ascii 'U' ∧ alphabetIndex (alphabet g) = some g := by decide
  obtain ⟨hf, hi, hl, ho, hu, hx⟩ := key g
  simp [b32Value, hf, hi, hl, ho, hu, hx]

/-- The decoder's value of an output digit is the digit (spec/43_hex.md R164). -/
@[simp] theorem hexValue_hexDigit (d : BitVec 4) : hexValue (hexDigit d) = some d := by revert d; decide

theorem hexpos_lt (j : Nat) (h : j < 32) : hexpos j < 36 := by unfold hexpos; split_ifs <;> omega

/-- Digit `j` stands at `hexpos j` and nowhere else. -/
theorem hexDigitAt_hexpos (j : Nat) (h : j < 32) : hexDigitAt (hexpos j) = some j := by
  have key : ∀ j : Fin 32, hexDigitAt (hexpos j) = some j.val := by decide
  exact key ⟨j, h⟩

/-- No digit stands at a hyphen position. -/
theorem hexDigitAt_hyphen (p : Nat) (h : p ∈ hyphenPositions) : hexDigitAt p = none := by
  simp only [hyphenPositions, List.mem_cons, List.not_mem_nil, or_false] at h
  rcases h with rfl | rfl | rfl | rfl <;> decide

/-! ### The two encoders, character by character -/

@[simp] theorem b32Encode_getElem (n : BitVec 128) (k : Nat) (h : k < 26) :
    (b32Encode n)[k] = alphabet (b32Group n k) := by simp [b32Encode]

@[simp] theorem hexEncode_hexpos (n : BitVec 128) (j : Nat) (h : j < 32) :
    (hexEncode n)[hexpos j]'(hexpos_lt j h) = hexDigit (hexNibble n j) := by
  simp [hexEncode, hexDigitAt_hexpos j h]

theorem hexEncode_hyphen (n : BitVec 128) (p : Nat) (h : p ∈ hyphenPositions) (hp : p < 36) :
    (hexEncode n)[p] = hyphen := by simp [hexEncode, hexDigitAt_hyphen p h]

/-! ### A value and its digits -/

/-- A value is its 32 nibbles put together (spec/30_encoding.md R95). -/
theorem concatDigits_hexNibble (n : BitVec 128) : concatDigits 4 (hexNibble n) 32 = n :=
  concatDigits_extract (w := 4) (by decide) 32 n

/-- Nibble `j` of 32 nibbles put together. -/
theorem hexNibble_concatDigits (f : Nat → BitVec 4) (j : Nat) (h : j < 32) :
    hexNibble (concatDigits 4 f 32) j = f j := extract_concatDigits (w := 4) (by decide) f 32 j h

/-- The 26 groups of a value put together are the value with two zero bits before it (spec/30_encoding.md R89). -/
theorem concatDigits_b32Group (n : BitVec 128) : concatDigits 5 (b32Group n) 26 = (0b00#2 ++ n : BitVec 130) :=
  concatDigits_extract (w := 5) (by decide) 26 (0b00#2 ++ n : BitVec 130)

/-- The first group has its two top bits zero (spec/40_base32.md R120). -/
theorem b32Group_zero_le (n : BitVec 128) : b32Group n 0 ≤ 7 := by
  have h : (b32Group n 0).toNat < 8 := by
    have := n.isLt
    simp only [b32Group, BitVec.extractLsb'_toNat, BitVec.toNat_append]
    simp
    omega
  exact BitVec.le_def.mpr (by simpa using Nat.lt_succ_iff.mp h)

/-- Group `k` of 26 groups put together, when the first passes the overflow guard (spec/40_base32.md R124). -/
theorem b32Group_concatDigits (f : Nat → BitVec 5) (h0 : f 0 ≤ 7) (k : Nat) (hk : k < 26) :
    b32Group ((concatDigits 5 f 26).extractLsb' 0 128) k = f k := by
  have e : (0b00#2 ++ (concatDigits 5 f 26).extractLsb' 0 128 : BitVec 130) = concatDigits 5 f 26 := by
    apply BitVec.eq_of_getLsbD_eq
    intro j hj
    simp only [BitVec.getLsbD_append]
    by_cases h : j < 128
    · simp [h]
    · have hb : (f 0).getLsbD (j % 5) = false := by
        have key : ∀ g : BitVec 5, g ≤ 7 → ∀ i : Fin 5, 3 ≤ i.val → g.getLsbD i.val = false := by decide
        exact key _ h0 ⟨j % 5, Nat.mod_lt _ (by decide)⟩ (show 3 ≤ j % 5 by omega)
      rw [getLsbD_concatDigits (by decide) f 26 j hj, show 26 - 1 - j / 5 = 0 by omega, hb]
      simp [h]
  show (0b00#2 ++ (concatDigits 5 f 26).extractLsb' 0 128 : BitVec 130).extractLsb' (5 * (26 - 1 - k)) 5 = f k
  rw [e]
  exact extract_concatDigits (by decide) f 26 k hk

/-- A value is determined by its groups. -/
theorem eq_of_b32Group_eq (n m : BitVec 128) (h : ∀ k < 26, b32Group n k = b32Group m k) : n = m := by
  have e := concatDigits_congr _ _ 26 h
  rw [concatDigits_b32Group, concatDigits_b32Group] at e
  have := congrArg (fun x : BitVec 130 => x.extractLsb' 0 128) e
  have low : ∀ x : BitVec 128, (0b00#2 ++ x : BitVec 130).extractLsb' 0 128 = x := by
    intro x
    apply BitVec.eq_of_getLsbD_eq
    intro j hj
    rw [BitVec.getLsbD_extractLsb', Nat.zero_add, BitVec.getLsbD_append]
    simp only [hj, decide_true, Bool.true_and, if_true]
  simpa only [low] using this

/-- A value is determined by its nibbles. -/
theorem eq_of_hexNibble_eq (n m : BitVec 128) (h : ∀ j < 32, hexNibble n j = hexNibble m j) : n = m := by
  rw [← concatDigits_hexNibble n, ← concatDigits_hexNibble m]; exact concatDigits_congr _ _ 32 h

end Sys2Proof.Machine
end

