-- ==== Sys2Proof/Laws/Ops.lean ====
section
/-! SUPPORT. What each shared operation can do, said once: the end of a command, the checks, the decoders, a byte write
and the byte reads after it. -/

namespace Sys2Proof.Machine

/-! ### The end of a command (spec/00_scope.md R14, R15) -/

@[simp] theorem complete_ok (s t : State) : complete s (.ok t) = t.succeed := rfl
@[simp] theorem complete_error (s : State) (c : Check) : complete s (.error c) = s.raise c := rfl

/-- A command commits its writes with a report of success, or changes the report alone. -/
theorem complete_cases (s : State) (r : Except Check State) :
    (∃ t, r = .ok t ∧ complete s r = t.succeed) ∨ (∃ c, r = .error c ∧ complete s r = s.raise c) := by
  cases r with
  | ok t => exact .inl ⟨t, rfl, rfl⟩
  | error c => exact .inr ⟨c, rfl, rfl⟩

/-- No error kind is coded as success. -/
theorem kind_code_ne_zero (k : Kind) : k.code ≠ 0 := by cases k <;> decide

/-! ### The range tests and the scope map -/

theorem tsInRange_iff (x : BitVec 64) : tsInRange x = true ↔ x.extractLsb' 48 16 = 0 := by simp [tsInRange]
theorem pscInRange_iff (x : BitVec 32) : pscInRange x = true ↔ x.extractLsb' 16 16 = 0 := by simp [pscInRange]

/-- `to_stored` fails out of range, gives the maximum for 0, and passes every other value (spec/42_scope.md R151). -/
theorem toStored_cases (p : BitVec 32) :
    (p.extractLsb' 16 16 ≠ 0 ∧ toStored p = .error .scopeRange) ∨
    (p.extractLsb' 16 16 = 0 ∧ p.extractLsb' 0 16 = 0 ∧ toStored p = .ok 0xFFFF) ∨
    (p.extractLsb' 16 16 = 0 ∧ p.extractLsb' 0 16 ≠ 0 ∧ toStored p = .ok (p.extractLsb' 0 16)) := by
  cases hr : pscInRange p with
  | false =>
    refine .inl ⟨fun h => ?_, by unfold toStored; rw [hr]; rfl⟩
    rw [(pscInRange_iff p).mpr h] at hr; cases hr
  | true =>
    have h := (pscInRange_iff p).mp hr
    refine .inr ?_
    by_cases h0 : p.extractLsb' 0 16 = 0
    · exact .inl ⟨h, h0, by unfold toStored; rw [hr, if_neg (by decide), if_pos h0]⟩
    · exact .inr ⟨h, h0, by unfold toStored; rw [hr, if_neg (by decide), if_neg h0]⟩

/-- The stored scope is never 0 (spec/42_scope.md R151). -/
theorem toStored_ne_zero (p : BitVec 32) (x : BitVec 16) (h : toStored p = .ok x) : x ≠ 0 := by
  rcases toStored_cases p with ⟨_, e⟩ | ⟨_, _, e⟩ | ⟨_, h0, e⟩
  · simp [e] at h
  · rw [e] at h; cases h; decide
  · rw [e] at h; cases h; exact h0

/-- `to_public` fails on 0 only (spec/42_scope.md R153). -/
theorem toPublic_cases (cfg : Config) (x : BitVec 16) :
    (x = 0 ∧ toPublic cfg x = .error .scopeReserved) ∨
    (x ≠ 0 ∧ toPublic cfg x = .ok (if cfg.scopeReadbackRemap && x == 0xFFFF then 0 else x)) := by
  by_cases h : x = 0
  · exact .inl ⟨h, by simp [toPublic, h]⟩
  · refine .inr ⟨h, ?_⟩
    simp only [toPublic, h, if_false]
    split <;> rfl

/-- On this hardware `to_public` is the identity outside 0 (spec/42_scope.md R153). -/
theorem toPublic_hardware (x : BitVec 16) (h : x ≠ 0) : toPublic hardware x = .ok x := by
  unfold toPublic; rw [if_neg h]; rfl

/-! ### The two decoders -/

/-- What `b32_decode` can answer: one of its three checks, in order, or the value whose groups are the characters'
values (spec/40_base32.md R123). -/
theorem b32Decode_cases (cfg : Config) (len : Byte) (s : Vector Byte 36) :
    (len ≠ 26 ∧ b32Decode cfg len s = .error .len) ∨
    (len = 26 ∧ (∃ k < 26, b32Value cfg.uAliasValue (charAt s k) = none) ∧ b32Decode cfg len s = .error .char) ∨
    (len = 26 ∧ (∀ k < 26, b32Value cfg.uAliasValue (charAt s k) ≠ none) ∧
      (∃ g, b32Value cfg.uAliasValue (charAt s 0) = some g ∧ 7 < g) ∧ b32Decode cfg len s = .error .overflow) ∨
    (len = 26 ∧ ∃ n, b32Decode cfg len s = .ok n ∧
      ∀ k < 26, b32Value cfg.uAliasValue (charAt s k) = some (b32Group n k)) := by
  by_cases hl : len = 26
  swap
  · exact .inl ⟨hl, by unfold b32Decode; rw [if_pos hl]⟩
  refine .inr ?_
  by_cases hc : ∃ k < 26, b32Value cfg.uAliasValue (charAt s k) = none
  · refine .inl ⟨hl, hc, ?_⟩
    have : ((List.range 26).any fun k => (b32Value cfg.uAliasValue (charAt s k)).isNone) = true := by
      obtain ⟨k, hk, h⟩ := hc
      exact List.any_eq_true.mpr ⟨k, by simpa using hk, by simp [h]⟩
    unfold b32Decode; rw [if_neg (not_not.mpr hl), if_pos this]
  have hv : ∀ k < 26, b32Value cfg.uAliasValue (charAt s k) ≠ none := fun k hk h => hc ⟨k, hk, h⟩
  have hany : ((List.range 26).any fun k => (b32Value cfg.uAliasValue (charAt s k)).isNone) = false := by
    rw [List.any_eq_false]
    intro k hk
    simpa [Option.isNone_iff_eq_none] using hv k (by simpa using hk)
  refine .inr ?_
  have hsome : ∀ k < 26, b32Value cfg.uAliasValue (charAt s k) =
      some ((b32Value cfg.uAliasValue (charAt s k)).getD 0) := by
    intro k hk
    cases h : b32Value cfg.uAliasValue (charAt s k) with
    | none => exact absurd h (hv k hk)
    | some g => rfl
  by_cases h0 : 7 < (b32Value cfg.uAliasValue (charAt s 0)).getD 0
  · exact .inl ⟨hl, hv, ⟨_, hsome 0 (by decide), h0⟩, by
      unfold b32Decode; rw [if_neg (not_not.mpr hl), if_neg (by simp [hany]), if_pos h0]⟩
  · refine .inr ⟨hl, (concatDigits 5 (fun k => (b32Value cfg.uAliasValue (charAt s k)).getD 0) 26).extractLsb' 0 128, ?_, ?_⟩
    · unfold b32Decode; rw [if_neg (not_not.mpr hl), if_neg (by simp [hany]), if_neg h0]
    · intro k hk
      rw [b32Group_concatDigits _ (BitVec.not_lt.mp h0) k hk]
      exact hsome k hk

/-- What `hex_decode` can answer (spec/43_hex.md R162). -/
theorem hexDecode_cases (len : Byte) (s : Vector Byte 36) :
    (len ≠ 36 ∧ hexDecode len s = .error .len) ∨
    (len = 36 ∧ (∃ p ∈ hyphenPositions, charAt s p ≠ hyphen) ∧ hexDecode len s = .error .group) ∨
    (len = 36 ∧ (∀ p ∈ hyphenPositions, charAt s p = hyphen) ∧
      (∃ j < 32, hexValue (charAt s (hexpos j)) = none) ∧ hexDecode len s = .error .char) ∨
    (len = 36 ∧ (∀ p ∈ hyphenPositions, charAt s p = hyphen) ∧ ∃ n, hexDecode len s = .ok n ∧
      ∀ j < 32, hexValue (charAt s (hexpos j)) = some (hexNibble n j)) := by
  by_cases hl : len = 36
  swap
  · exact .inl ⟨hl, by unfold hexDecode; rw [if_pos hl]⟩
  refine .inr ?_
  by_cases hg : ∃ p ∈ hyphenPositions, charAt s p ≠ hyphen
  · refine .inl ⟨hl, hg, ?_⟩
    have : (hyphenPositions.any fun p => charAt s p != hyphen) = true := by
      obtain ⟨p, hp, h⟩ := hg
      exact List.any_eq_true.mpr ⟨p, hp, by simpa using h⟩
    unfold hexDecode; rw [if_neg (not_not.mpr hl), if_pos this]
  have hh : ∀ p ∈ hyphenPositions, charAt s p = hyphen := fun p hp => not_not.mp fun h => hg ⟨p, hp, h⟩
  have hgany : (hyphenPositions.any fun p => charAt s p != hyphen) = false := by
    rw [List.any_eq_false]; intro p hp; simpa using hh p hp
  refine .inr ?_
  by_cases hc : ∃ j < 32, hexValue (charAt s (hexpos j)) = none
  · refine .inl ⟨hl, hh, hc, ?_⟩
    have : ((List.range 32).any fun j => (hexValue (charAt s (hexpos j))).isNone) = true := by
      obtain ⟨j, hj, h⟩ := hc
      exact List.any_eq_true.mpr ⟨j, by simpa using hj, by simp [h]⟩
    unfold hexDecode; rw [if_neg (not_not.mpr hl), if_neg (by simp [hgany]), if_pos this]
  have hv : ∀ j < 32, hexValue (charAt s (hexpos j)) ≠ none := fun j hj h => hc ⟨j, hj, h⟩
  have hany : ((List.range 32).any fun j => (hexValue (charAt s (hexpos j))).isNone) = false := by
    rw [List.any_eq_false]
    intro j hj
    simpa [Option.isNone_iff_eq_none] using hv j (by simpa using hj)
  refine .inr ⟨hl, hh, concatDigits 4 (fun j => (hexValue (charAt s (hexpos j))).getD 0) 32, ?_, ?_⟩
  · unfold hexDecode; rw [if_neg (not_not.mpr hl), if_neg (by simp [hgany]), if_neg (by simp [hany])]
  · intro j hj
    rw [hexNibble_concatDigits _ j hj]
    cases h : hexValue (charAt s (hexpos j)) with
    | none => exact absurd h (hv j hj)
    | some g => rfl

/-! ### The register map (spec/20_memory.md R54) -/

/-- Which addresses a location stands at: one for a register byte or CMD, the 33 of spec/20_memory.md R55 for reserved. -/
def Loc.standsAt (l : Loc) (n : Nat) : Bool :=
  match l with
  | .v i => n == i.val
  | .w i => n == 0x10 + i.val
  | .tsw i => n == 0x20 + i.val
  | .psc i => n == 0x28 + i.val
  | .ssc i => n == 0x2C + i.val
  | .en i => n == 0x30 + i.val
  | .tlen => n == 0x38
  | .status => n == 0x39
  | .detail => n == 0x3A
  | .cmpr => n == 0x3B
  | .cmd => n == 0x3C
  | .t i => n == 0x40 + i.val
  | .reserved => n == 0x2E || n == 0x2F || (decide (0x3D ≤ n) && decide (n ≤ 0x3F)) || decide (0x64 ≤ n)

/-- What the map gives for an address stands at that address. -/
theorem locOf_standsAt (a : Addr) : (locOf a).standsAt a.toNat = true := by revert a; decide

/-- Two addresses of one stored location are one address. -/
theorem locOf_inj (a b : Addr) (h : locOf a = locOf b) (hr : locOf a ≠ .reserved) : a = b := by
  have ha := locOf_standsAt a
  have hb := locOf_standsAt b
  rw [← h] at hb
  apply BitVec.eq_of_toNat_eq
  cases hl : locOf a <;> rw [hl] at ha hb <;> simp only [Loc.standsAt, beq_iff_eq] at ha hb <;>
    first | omega | exact absurd hl hr

/-! ### A byte write and the byte reads after it (spec/20_memory.md R61) -/

/-- The locations a host write stores to (spec/20_memory.md R54). -/
def Loc.stores : Loc → Bool
  | .v _ | .w _ | .tsw _ | .psc _ | .ssc _ | .en _ | .tlen | .t _ => true
  | .status | .detail | .cmpr | .cmd | .reserved => false

/-- A byte stored is the byte read back. -/
theorem readLoc_writeLoc_self (s : State) (l : Loc) (b : Byte) (h : l.stores = true) :
    (s.writeLoc l b).readLoc l = b := by
  cases l with
  | v i => exact byteOf_setByteOf_self _ _ _ (by omega)
  | w i => exact byteOf_setByteOf_self _ _ _ (by omega)
  | tsw i => exact byteOf_setByteOf_self _ _ _ (by omega)
  | psc i => exact byteOf_setByteOf_self _ _ _ (by omega)
  | ssc i => exact byteOf_setByteOf_self _ _ _ (by omega)
  | en i => exact byteOf_setByteOf_self _ _ _ (by omega)
  | tlen => rfl
  | t i => simp [State.writeLoc, State.readLoc]
  | status | detail | cmpr | cmd | reserved => simp [Loc.stores] at h

/-- Every other location reads as before. -/
theorem readLoc_writeLoc_ne (s : State) (l m : Loc) (b : Byte) (h : m ≠ l) :
    (s.writeLoc l b).readLoc m = s.readLoc m := by
  have ne : ∀ {k : Nat} (i j : Fin k), j ≠ i → j.val ≠ i.val := fun _ _ h e => h (Fin.ext e)
  cases l <;> cases m <;> first
    | rfl
    | exact absurd rfl h
    | (rename_i i j
       have hij : j ≠ i := fun e => h (by rw [e])
       first
         | exact byteOf_setByteOf_ne _ _ _ _ (by omega) (by omega) (ne _ _ hij)
         | (have := (ne _ _ hij).symm
            simp [State.writeLoc, State.readLoc, this]))

/-- A location that stores nothing leaves the state as it is. -/
theorem writeLoc_of_not_stores (s : State) (l : Loc) (b : Byte) (h : l.stores = false) : s.writeLoc l b = s := by
  cases l <;> first | rfl | simp [Loc.stores] at h

end Sys2Proof.Machine
end

