-- ==== Sys2Proof/Laws/PerInstr.lean ====
section
/-! SUPPORT. The family Encoding: what the opcode map says of each command (spec/30_encoding.md R82): it is well formed, its
code is below the illegal range `0x0D` to `0xFF`, and no other command has its code. -/

namespace Sys2Proof.Laws.Encoding

/-- A command is well formed, its code is at most `0x0C`, and no other command has that code. -/
def Statement (i : Instr) : Prop :=
  i.wellFormed = true ∧ (encode i).toNat ≤ 0x0C ∧ ∀ j, encode j = encode i → j = i

theorem nop : Statement .nop := ⟨rfl, by decide, by intro j; cases j <;> decide⟩
theorem b32enc : Statement .b32enc := ⟨rfl, by decide, by intro j; cases j <;> decide⟩
theorem b32dec : Statement .b32dec := ⟨rfl, by decide, by intro j; cases j <;> decide⟩
theorem hexenc : Statement .hexenc := ⟨rfl, by decide, by intro j; cases j <;> decide⟩
theorem hexdec : Statement .hexdec := ⟨rfl, by decide, by intro j; cases j <;> decide⟩
theorem pack : Statement .pack := ⟨rfl, by decide, by intro j; cases j <;> decide⟩
theorem unpack : Statement .unpack := ⟨rfl, by decide, by intro j; cases j <;> decide⟩
theorem sc2st : Statement .sc2st := ⟨rfl, by decide, by intro j; cases j <;> decide⟩
theorem sc2pub : Statement .sc2pub := ⟨rfl, by decide, by intro j; cases j <;> decide⟩
theorem make : Statement .make := ⟨rfl, by decide, by intro j; cases j <;> decide⟩
theorem parseb32 : Statement .parseb32 := ⟨rfl, by decide, by intro j; cases j <;> decide⟩
theorem parsehex : Statement .parsehex := ⟨rfl, by decide, by intro j; cases j <;> decide⟩
theorem cmp : Statement .cmp := ⟨rfl, by decide, by intro j; cases j <;> decide⟩

end Sys2Proof.Laws.Encoding
end

