-- ==== Sys2Proof/Laws/Step.lean ====
section
/-! SUPPORT. What a command and a step can do, said once: every command answers a next state, the end of its pseudocode;
a step is a reset, a command, a byte write, or an edge that changes no register. -/

namespace Sys2Proof.Machine

/-! ### Each command as the end of its pseudocode -/

theorem exec_nop (s : State) : exec .nop s = .next (complete s (nopCmd s)) := rfl
theorem exec_b32enc (s : State) : exec .b32enc s = .next (complete s (b32encCmd s)) := rfl
theorem exec_b32dec (s : State) : exec .b32dec s = .next (complete s (b32decCmd hardware s)) := rfl
theorem exec_hexenc (s : State) : exec .hexenc s = .next (complete s (hexencCmd s)) := rfl
theorem exec_hexdec (s : State) : exec .hexdec s = .next (complete s (hexdecCmd s)) := rfl
theorem exec_pack (s : State) : exec .pack s = .next (complete s (packCmd s)) := rfl
theorem exec_unpack (s : State) : exec .unpack s = .next (complete s (unpackCmd s)) := rfl
theorem exec_sc2st (s : State) : exec .sc2st s = .next (complete s (sc2stCmd s)) := rfl
theorem exec_sc2pub (s : State) : exec .sc2pub s = .next (complete s (sc2pubCmd hardware s)) := rfl
theorem exec_make (s : State) : exec .make s = .next (complete s (makeCmd hardware s)) := rfl
theorem exec_parseb32 (s : State) : exec .parseb32 s = .next (complete s (parseb32Cmd hardware s)) := rfl
theorem exec_parsehex (s : State) : exec .parsehex s = .next (complete s (parsehexCmd hardware s)) := rfl
theorem exec_cmp (s : State) : exec .cmp s = .next (complete s (cmpCmd s)) := rfl

/-- A command's pseudocode on the registers (spec/00_scope.md R14), for statements over all commands. -/
def pseudocode (cfg : Config) : Instr → State → Except Check State
  | .nop => nopCmd
  | .b32enc => b32encCmd
  | .b32dec => b32decCmd cfg
  | .hexenc => hexencCmd
  | .hexdec => hexdecCmd
  | .pack => packCmd
  | .unpack => unpackCmd
  | .sc2st => sc2stCmd
  | .sc2pub => sc2pubCmd cfg
  | .make => makeCmd cfg
  | .parseb32 => parseb32Cmd cfg
  | .parsehex => parsehexCmd cfg
  | .cmp => cmpCmd

/-- Every command answers a next state: its pseudocode committed or raised (spec/70_reset_and_hazards.md R247). -/
theorem exec_eq (i : Instr) (s : State) : exec i s = .next (complete s (pseudocode hardware i s)) := by
  cases i <;> rfl

/-! ### What each pseudocode can do -/

theorem packCmd_cases (s : State) :
    (s.tsw.extractLsb' 48 16 ≠ 0 ∧ packCmd s = .error .tsRange) ∨
    (s.tsw.extractLsb' 48 16 = 0 ∧ packCmd s = .ok { s with v := pack (tsField s.tsw) s.ssc s.en }) := by
  cases h : tsInRange s.tsw with
  | true => exact .inr ⟨(tsInRange_iff _).mp h, by unfold packCmd; rw [h]; rfl⟩
  | false =>
    refine .inl ⟨fun h0 => ?_, by unfold packCmd; rw [h]; rfl⟩
    rw [(tsInRange_iff _).mpr h0] at h; cases h

theorem b32decCmd_cases (cfg : Config) (s : State) :
    (∃ c, b32Decode cfg s.tlen s.t = .error c ∧ b32decCmd cfg s = .error c) ∨
    (∃ n, b32Decode cfg s.tlen s.t = .ok n ∧ b32decCmd cfg s = .ok { s with v := n }) := by
  cases h : b32Decode cfg s.tlen s.t with
  | error c => exact .inl ⟨c, rfl, by unfold b32decCmd; rw [h]⟩
  | ok n => exact .inr ⟨n, rfl, by unfold b32decCmd; rw [h]⟩

theorem hexdecCmd_cases (s : State) :
    (∃ c, hexDecode s.tlen s.t = .error c ∧ hexdecCmd s = .error c) ∨
    (∃ n, hexDecode s.tlen s.t = .ok n ∧ hexdecCmd s = .ok { s with v := n }) := by
  cases h : hexDecode s.tlen s.t with
  | error c => exact .inl ⟨c, rfl, by unfold hexdecCmd; rw [h]⟩
  | ok n => exact .inr ⟨n, rfl, by unfold hexdecCmd; rw [h]⟩

theorem sc2stCmd_cases (s : State) :
    (∃ c, toStored s.psc = .error c ∧ sc2stCmd s = .error c) ∨
    (∃ x, toStored s.psc = .ok x ∧ sc2stCmd s = .ok { s with ssc := x }) := by
  cases h : toStored s.psc with
  | error c => exact .inl ⟨c, rfl, by unfold sc2stCmd; rw [h]⟩
  | ok x => exact .inr ⟨x, rfl, by unfold sc2stCmd; rw [h]⟩

theorem sc2pubCmd_cases (cfg : Config) (s : State) :
    (∃ c, toPublic cfg s.ssc = .error c ∧ sc2pubCmd cfg s = .error c) ∨
    (∃ p, toPublic cfg s.ssc = .ok p ∧ sc2pubCmd cfg s = .ok { s with psc := p.setWidth 32 }) := by
  cases h : toPublic cfg s.ssc with
  | error c => exact .inl ⟨c, rfl, by unfold sc2pubCmd; rw [h]⟩
  | ok p => exact .inr ⟨p, rfl, by unfold sc2pubCmd; rw [h]⟩

/-- MAKE fails on the timestamp, then on the scope, and never in `to_public` (spec/44_identifier.md R176). -/
theorem makeCmd_cases (cfg : Config) (s : State) :
    (s.tsw.extractLsb' 48 16 ≠ 0 ∧ makeCmd cfg s = .error .tsRange) ∨
    (s.tsw.extractLsb' 48 16 = 0 ∧ toStored s.psc = .error .scopeRange ∧ makeCmd cfg s = .error .scopeRange) ∨
    (s.tsw.extractLsb' 48 16 = 0 ∧ ∃ x p, toStored s.psc = .ok x ∧ x ≠ 0 ∧ toPublic cfg x = .ok p ∧
      makeCmd cfg s = .ok { s with v := pack (tsField s.tsw) x s.en, ssc := x, psc := p.setWidth 32 }) := by
  cases h : tsInRange s.tsw with
  | false =>
    refine .inl ⟨fun h0 => ?_, by unfold makeCmd; rw [h]; rfl⟩
    rw [(tsInRange_iff _).mpr h0] at h; cases h
  | true =>
    have h0 := (tsInRange_iff _).mp h
    refine .inr ?_
    cases hx : toStored s.psc with
    | error c =>
      have hc : c = .scopeRange := by
        rcases toStored_cases s.psc with ⟨_, e⟩ | ⟨_, _, e⟩ | ⟨_, _, e⟩ <;> rw [e] at hx <;> cases hx
        rfl
      exact .inl ⟨h0, by rw [hc], by unfold makeCmd; rw [h, hx, hc]; rfl⟩
    | ok x =>
      have hne := toStored_ne_zero _ _ hx
      rcases toPublic_cases cfg x with ⟨e, _⟩ | ⟨_, e⟩
      · exact absurd e hne
      · exact .inr ⟨h0, x, _, rfl, hne, e, by unfold makeCmd; rw [h, hx]; simp only [e]; rfl⟩

/-- The common end of the parse commands fails on the reserved scope only (spec/44_identifier.md R177). -/
theorem parseValue_cases (cfg : Config) (n : BitVec 128) (s : State) :
    (n.extractLsb' 64 16 = 0 ∧ parseValue cfg n s = .error .scopeReserved) ∨
    (n.extractLsb' 64 16 ≠ 0 ∧ ∃ p, toPublic cfg (n.extractLsb' 64 16) = .ok p ∧
      parseValue cfg n s = .ok { s with
        v := n, tsw := (n.extractLsb' 80 48).setWidth 64, ssc := n.extractLsb' 64 16, psc := p.setWidth 32,
        en := n.extractLsb' 0 64 }) := by
  rcases toPublic_cases cfg (n.extractLsb' 64 16) with ⟨h, e⟩ | ⟨h, e⟩
  · exact .inl ⟨h, by unfold parseValue unpack; rw [e]⟩
  · exact .inr ⟨h, _, e, by unfold parseValue unpack; rw [e]⟩

theorem parseb32Cmd_cases (cfg : Config) (s : State) :
    (∃ c, b32Decode cfg s.tlen s.t = .error c ∧ parseb32Cmd cfg s = .error c) ∨
    (∃ n, b32Decode cfg s.tlen s.t = .ok n ∧ parseb32Cmd cfg s = parseValue cfg n s) := by
  cases h : b32Decode cfg s.tlen s.t with
  | error c => exact .inl ⟨c, rfl, by unfold parseb32Cmd; rw [h]⟩
  | ok n => exact .inr ⟨n, rfl, by unfold parseb32Cmd; rw [h]⟩

theorem parsehexCmd_cases (cfg : Config) (s : State) :
    (∃ c, hexDecode s.tlen s.t = .error c ∧ parsehexCmd cfg s = .error c) ∨
    (∃ n, hexDecode s.tlen s.t = .ok n ∧ parsehexCmd cfg s = parseValue cfg n s) := by
  cases h : hexDecode s.tlen s.t with
  | error c => exact .inl ⟨c, rfl, by unfold parsehexCmd; rw [h]⟩
  | ok n => exact .inr ⟨n, rfl, by unfold parsehexCmd; rw [h]⟩

/-! ### The bus -/

/-- A byte written to CMD runs its command, or raises IllegalCommand (spec/20_memory.md R52, spec/60_exceptions.md R208). -/
theorem command_cases (c : Byte) (s : State) :
    (∃ i, decode c = .ok i ∧ command c s = .next (complete s (pseudocode hardware i s))) ∨
    (∃ e, decode c = .error e ∧ command c s = .next (s.raise .illegalCmd)) := by
  cases h : decode c with
  | ok i => exact .inl ⟨i, rfl, by unfold command; rw [h]; exact exec_eq i s⟩
  | error e => exact .inr ⟨e, rfl, by unfold command; rw [h]⟩

/-- The command port is the one location at its address (spec/20_memory.md R54). -/
theorem locOf_eq_cmd_iff (a : Addr) : locOf a = .cmd ↔ a = cmdAddr := by
  revert a; decide

/-- A write to CMD is its command; a write anywhere else is a byte write (spec/20_memory.md R52). -/
theorem memWrite_cases (a : Addr) (d : Byte) (s : State) :
    (a = cmdAddr ∧ memWrite a d s = command d s) ∨ (a ≠ cmdAddr ∧ memWrite a d s = .next (s.writeLoc (locOf a) d)) := by
  by_cases h : a = cmdAddr
  · exact .inl ⟨h, by subst h; rfl⟩
  · refine .inr ⟨h, ?_⟩
    have hl : locOf a ≠ .cmd := fun e => h ((locOf_eq_cmd_iff a).mp e)
    unfold memWrite
    cases hx : locOf a <;> first | rfl | exact absurd hx hl

/-- Everything an edge can do (spec/20_memory.md R67), with `s₁` the state whose `rdata` record is the edge's. -/
theorem clockEdge_cases (e : Edge) (s : State) :
    (e.rst = true ∧ clockEdge e s = .next ({ s with rdata := rdataAt e s } : State).resetRegs) ∨
    (e.rst = false ∧ e.sel = true ∧ e.wr = true ∧
      clockEdge e s = memWrite e.addr e.wdata { s with rdata := rdataAt e s }) ∨
    (e.rst = false ∧ (e.sel && e.wr) = false ∧ clockEdge e s = .next { s with rdata := rdataAt e s }) := by
  cases hr : e.rst <;> cases hs : e.sel <;> cases hw : e.wr <;> simp [clockEdge, hr, hs, hw]

/-- A step is the next edge. -/
theorem step_eq (s : State) : step s = clockEdge (nextEdge s) s.takeEdge := rfl

/-- The next edge when the host has one to present. -/
theorem nextEdge_of_bus {s : State} {e : Edge} {rest : List Edge} (h : s.bus = e :: rest) : nextEdge s = e := by
  simp [nextEdge, h]

/-- The word `withFetchWord` places is the command of the very next step. -/
theorem step_withFetchWord (s : State) (w : Nat) (h : w < 2 ^ 8) :
    step (s.withFetchWord 8 w) = command (BitVec.ofNat 8 w) { s with rdata := 0 } := by
  have : w % 2 ^ 8 = w := Nat.mod_eq_of_lt h
  simp only [step, State.withFetchWord, nextEdge, fetchEdge, this]
  rfl

end Sys2Proof.Machine
end

