-- ==== Sys2Proof/Tests/Slice0.lean ====
section
/-! SUPPORT. Tests of one step each, with expected results copied from the spec's examples and vectors (the place is in
each comment), the smoke test of well-formedness, and for every obligation with hypotheses a witness that meets them. -/

namespace Sys2Proof.Tests

open Sys2Proof.Machine Sys2Proof.Claims

/-! ### Helpers -/

/-- The codes of a text. -/
def codes (x : String) : List Byte := x.toList.map ascii

/-- A text at the front of the buffer, `0x00` behind it. -/
def buffer (x : String) : Vector Byte 36 := Vector.ofFn fun i => (codes x).getD i 0

/-- The registers as a host finds them in the middle of a run: the fill pattern of spec/95_test_vectors.md S12, an error
report and a comparison result. -/
def used : State :=
  { State.reset with
    v := 0xAAAAAAAAAAAAAAAAAAAAAAAAAAAAAAAA, en := 0x0001020304050607, t := Vector.replicate 36 0x2A, tlen := 9,
    status := 5, detail := 8, cmpr := 2 }

/-- `used` with a text presented. -/
def withText (x : String) : State := { used with t := buffer x, tlen := BitVec.ofNat 8 (codes x).length }

/-- `used` with a timestamp and a public scope. -/
def withScope (ts : BitVec 64) (p : BitVec 32) : State := { used with tsw := ts, psc := p }

/-- The value of the worked example (spec/95_test_vectors.md S1). -/
def ulid : BitVec 128 := 0x01563DF3648103E80001020304050607

/-- Its timestamp, 1469918176385. -/
def stamp : BitVec 64 := 0x000001563DF36481

/-- The outcome is a next state of which `p` holds. -/
def answers (o : Host.Outcome State Fault Refusal) (p : State → Bool) : Bool :=
  match o with
  | .next t => p t
  | .fault _ => false
  | .refused _ => false

/-- The report `STATUS/DETAIL`. -/
def reports (t : State) (k d : Byte) : Bool := t.status == k && t.detail == d

/-! ### Decoding: the words of spec/30_encoding.md R82, bit by bit, one or more of each family -/

theorem test_decode_nop : decode 0b00000000#8 = .ok .nop := by decide
theorem test_decode_b32enc : decode 0b00000001#8 = .ok .b32enc := by decide
theorem test_decode_b32dec : decode 0b00000010#8 = .ok .b32dec := by decide
theorem test_decode_hexenc : decode 0b00000011#8 = .ok .hexenc := by decide
theorem test_decode_hexdec : decode 0b00000100#8 = .ok .hexdec := by decide
theorem test_decode_pack : decode 0b00000101#8 = .ok .pack := by decide
theorem test_decode_unpack : decode 0b00000110#8 = .ok .unpack := by decide
theorem test_decode_sc2st : decode 0b00000111#8 = .ok .sc2st := by decide
theorem test_decode_sc2pub : decode 0b00001000#8 = .ok .sc2pub := by decide
theorem test_decode_make : decode 0b00001001#8 = .ok .make := by decide
theorem test_decode_parseb32 : decode 0b00001010#8 = .ok .parseb32 := by decide
theorem test_decode_parsehex : decode 0b00001011#8 = .ok .parsehex := by decide
theorem test_decode_cmp : decode 0b00001100#8 = .ok .cmp := by decide

/-- The first illegal code and a code that differs from MAKE's in the top bit only (R83). -/
theorem test_decode_illegal :
    decode 0x0D = .error (.illegalCommand 0x0D) ∧ decode 0x89 = .error (.illegalCommand 0x89) := by decide

/-- A word with a bit above the byte is none (R80). -/
theorem test_decode_table_word :
    decodeTableWord 8 0x09 = some .make ∧ decodeTableWord 8 0x0D = none ∧ decodeTableWord 8 0x109 = none := by decide

/-! ### Well-formedness refuses (spec/30_encoding.md R85, R86; spec/20_memory.md R52) -/

theorem test_wf_wr_address : HostLine.wellFormed (.wr 0x80 0) = false := by decide
theorem test_wf_wr_data : HostLine.wellFormed (.wr 0x38 0x100) = false := by decide
theorem test_wf_rd : HostLine.wellFormed (.rd 0x80) = false := by decide
theorem test_wf_cmd_code : HostLine.wellFormed (.cmdCode 0x100) = false := by decide
theorem test_wf_ldv : HostLine.wellFormed (.ldv (2 ^ 128)) = false := by decide
theorem test_wf_ldw : HostLine.wellFormed (.ldw (2 ^ 128)) = false := by decide
theorem test_wf_ldts : HostLine.wellFormed (.ldts (2 ^ 64)) = false := by decide
theorem test_wf_ldpsc : HostLine.wellFormed (.ldpsc (2 ^ 32)) = false := by decide
theorem test_wf_ldssc : HostLine.wellFormed (.ldssc (2 ^ 16)) = false := by decide
theorem test_wf_lden : HostLine.wellFormed (.lden (2 ^ 64)) = false := by decide
theorem test_wf_ldt_length : HostLine.wellFormed (.ldt (List.replicate 37 0x41)) = false := by decide
theorem test_wf_ldt_ascii : HostLine.wellFormed (.ldt [0x41, 0x80]) = false := by decide
theorem test_wf_ldtlen : HostLine.wellFormed (.ldtlen 0x100) = false := by decide
theorem test_wf_rdt : HostLine.wellFormed (.rdt 37) = false := by decide

/-- The largest operands are accepted. -/
theorem test_wf_accepts :
    [HostLine.wr 0x7F 0xFF, .rd 0x7F, .cmd .cmp, .cmdCode 0xFF, .ldv (2 ^ 128 - 1), .ldts (-1), .ldpsc (2 ^ 32 - 1),
      .ldssc 65535, .lden (2 ^ 64 - 1), .ldt (List.replicate 36 0x7F), .ldtlen 255, .rdt 36].all HostLine.wellFormed := by
  decide

/-! ### One command -/

/-- R180: NOP clears the report and keeps `CMPR`. -/
theorem test_nop : exec .nop used = .next { used with status := 0, detail := 0 } := rfl

/-- spec/40_base32.md R121, the example; `T[26..35]` stay. -/
theorem test_b32enc_example :
    answers (exec .b32enc { used with v := ulid }) (fun t =>
      t.t.toList == codes "01ARYZ6S410FM000820C20A1G7" ++ List.replicate 10 0x2A && t.tlen == 26 && reports t 0 0) = true := by
  decide

/-- spec/95_test_vectors.md BE7. -/
theorem test_b32enc_letters :
    answers (exec .b32enc { used with v := 0xDEADBEEFCAFEBABE0123456789ABCDEF }) (fun t =>
      t.t.toList.take 26 == codes "6YNPZEZJQYQAZ028T5CY4TQKFF") = true := by decide

/-- spec/40_base32.md R125, the example (BD3): lower case and aliases. -/
theorem test_b32dec_aliases :
    answers (exec .b32dec (withText "01aryz6s41ofmooo82oc2oaig7")) (fun t => t.v == ulid && reports t 0 0) = true := by
  decide

/-- spec/96_test_vectors_continued.md P6: CHAR is reported before OVERFLOW, and `V` is kept. -/
theorem test_b32dec_check_order :
    answers (exec .b32dec (withText "81ARYZ6S410FM000820C20A1G*")) (fun t => t.v == used.v && reports t 1 2) = true := by
  decide

/-- spec/43_hex.md R161, the example. -/
theorem test_hexenc_example :
    answers (exec .hexenc { used with v := ulid }) (fun t =>
      t.t.toList == codes "01563df3-6481-03e8-0001-020304050607" && t.tlen == 36 && reports t 0 0) = true := by decide

/-- spec/43_hex.md R163, the example: upper case. -/
theorem test_hexdec_upper_case :
    answers (exec .hexdec (withText "01563DF3-6481-03E8-0001-020304050607")) (fun t => t.v == ulid && reports t 0 0) =
      true := by decide

/-- spec/43_hex.md R162: grouping is checked before the digits. -/
theorem test_hexdec_check_order :
    answers (exec .hexdec (withText "0156gdf3-6481-03e8-0001x020304050607")) (fun t => t.v == used.v && reports t 1 4) =
      true := by decide

/-- spec/41_packing.md R142, the example. -/
theorem test_pack_example :
    answers (exec .pack { used with tsw := stamp, ssc := 0x03E8 }) (fun t => t.v == ulid && reports t 0 0) = true := by
  decide

/-- spec/95_test_vectors.md S7: 2^48 is refused. -/
theorem test_pack_out_of_range :
    answers (exec .pack { used with tsw := 0x0001000000000000 }) (fun t => t.v == used.v && reports t 2 5) = true := by
  decide

/-- spec/41_packing.md R144, the example. -/
theorem test_unpack_example :
    answers (exec .unpack { used with v := 0xFFFFFFFFFFFF0000DEADBEEFCAFEBABE }) (fun t =>
      t.tsw == 0x0000FFFFFFFFFFFF && t.ssc == 0 && t.en == 0xDEADBEEFCAFEBABE && reports t 0 0) = true := by decide

/-- spec/95_test_vectors.md S3. -/
theorem test_sc2st_zero : answers (exec .sc2st { used with psc := 0 }) (fun t => t.ssc == 0xFFFF && reports t 0 0) = true := by
  decide

/-- spec/95_test_vectors.md S3. -/
theorem test_sc2st_out_of_range :
    answers (exec .sc2st { used with psc := 0x00010000, ssc := 7 }) (fun t => t.ssc == 7 && reports t 2 6) = true := by
  decide

/-- spec/42_scope.md R154. -/
theorem test_sc2pub_maximum :
    answers (exec .sc2pub { used with ssc := 0xFFFF, psc := 0x12345678 }) (fun t => t.psc == 0x0000FFFF && reports t 0 0) =
      true := by decide

/-- spec/42_scope.md R154. -/
theorem test_sc2pub_reserved :
    answers (exec .sc2pub { used with ssc := 0, psc := 0x12345678 }) (fun t => t.psc == 0x12345678 && reports t 3 7) =
      true := by decide

/-- spec/44_identifier.md R176, the example. -/
theorem test_make_example :
    answers (exec .make (withScope stamp 1000)) (fun t =>
      t.v == ulid && t.ssc == 0x03E8 && t.psc == 0x000003E8 && reports t 0 0) = true := by decide

/-- spec/44_identifier.md R176: the timestamp is reported before the scope. -/
theorem test_make_check_order :
    answers (exec .make (withScope 0xFFFF000000000000 0xFFFFFFFF)) (fun t => t.v == used.v && reports t 2 5) = true := by
  decide

/-- spec/44_identifier.md R177, the example. -/
theorem test_parseb32_example :
    answers (exec .parseb32 (withText "01ARYZ6S410FM000820C20A1G7")) (fun t =>
      t.v == ulid && t.tsw == stamp && t.ssc == 0x03E8 && t.psc == 0x000003E8 && t.en == 0x0001020304050607 &&
        reports t 0 0) = true := by decide

/-- spec/95_test_vectors.md BE12: a reserved scope (S4) is refused and `V` is kept. -/
theorem test_parseb32_reserved :
    answers (exec .parseb32 (withText "01ARYZ6S41000000820C20A1G7")) (fun t => t.v == used.v && reports t 3 7) = true := by
  decide

/-- spec/44_identifier.md R178, the example. -/
theorem test_parsehex_example :
    answers (exec .parsehex (withText "01563df3-6481-ffff-0001-020304050607")) (fun t =>
      t.v == 0x01563DF36481FFFF0001020304050607 && t.ssc == 0xFFFF && t.psc == 0x0000FFFF && reports t 0 0) = true := by
  decide

/-- spec/44_identifier.md R178: the third group `0000`. -/
theorem test_parsehex_reserved :
    answers (exec .parsehex (withText "01563df3-6481-0000-0001-020304050607")) (fun t => t.v == used.v && reports t 3 7) =
      true := by decide

/-- spec/44_identifier.md R179, the example. -/
theorem test_cmp_example :
    answers (exec .cmp { used with v := ulid, w := 0x01563DF36481FFFF0001020304050607 }) (fun t =>
      t.cmpr == 1 && reports t 0 0) = true := by decide

/-- spec/44_identifier.md R179: the comparison is unsigned. -/
theorem test_cmp_unsigned :
    answers (exec .cmp { used with v := 0x80000000000000000000000000000000, w := 1 }) (fun t => t.cmpr == 2) = true := by
  decide

/-! ### One step -/

/-- R242: MAKE as the first command after reset. -/
theorem test_step_make_after_reset :
    answers (step (State.reset.withFetchWord 8 0x09)) (fun t =>
      t.v == 0x000000000000FFFF0000000000000000 && t.ssc == 0xFFFF && t.psc == 0x0000FFFF && t.bus == []) = true := by
  decide

/-- spec/96_test_vectors_continued.md P6: a byte write replaces `TSW[2]` only. -/
theorem test_step_byte_write :
    answers (step { used with tsw := 0xFFFFFFFFFFFFFFFF, bus := [Edge.write 0x22 0x01] }) (fun t =>
      t.tsw == 0xFFFF01FFFFFFFFFF && reports t 5 8) = true := by decide

/-- spec/20_memory.md R57: `TSW[7]`, the least significant byte, is at `0x27`. -/
theorem test_step_read :
    answers (step { used with tsw := stamp, bus := [Edge.read 0x27] }) (fun t => t.rdata == 0x81) = true := by decide

/-- spec/60_exceptions.md R208. -/
theorem test_step_illegal :
    answers (step { State.reset with bus := [Edge.write 0x3C 0xFF] }) (fun t => reports t 5 8) = true := by decide

/-- spec/20_memory.md R67: reset wins over the transaction presented with it. -/
theorem test_step_reset :
    answers (step { used with bus := [{ Edge.write 0x00 0xFF with rst := true }] }) (fun t => t == State.reset) = true := by
  decide

/-! ### Witnesses: one for each clause of each obligation with hypotheses -/

theorem witness_AResetEdgeResetsEveryRegister :
    let e : Edge := { rst := true, sel := true, wr := true, addr := 0x3C, wdata := 0x09 }
    let s : State := { used with bus := [e, Edge.read 0x00] }
    s.bus = e :: [Edge.read 0x00] ∧ e.rst = true := by decide

theorem witness_AnEdgeWithoutTransactionChangesNoRegister :
    (let s : State := { used with bus := [Edge.idle, Edge.reset] }
     s.bus = Edge.idle :: [Edge.reset] ∧ Edge.idle.rst = false ∧ Edge.idle.sel = false) ∧ used.bus = [] := by decide

theorem witness_AReadStepChangesNoRegister :
    let s : State := { used with bus := [Edge.read 0x7F] }
    s.bus = Edge.read 0x7F :: [] ∧ (Edge.read 0x7F).rst = false ∧ (Edge.read 0x7F).sel = true ∧
      (Edge.read 0x7F).wr = false := by decide

theorem witness_AWriteStoresOneByteOrRunsACommand :
    (∀ a ∈ [0x00, 0x2D, 0x30, 0x38, 0x40, 0x63], readWrite ((a : Addr).toNat)) ∧
    (decode 0x00 = .ok .nop ∧ decode 0x0C = .ok .cmp) ∧
    ((∀ i, decode 0x0D ≠ .ok i) ∧ ∀ i, decode 0xFF ≠ .ok i) ∧
    ∀ a ∈ [0x2E, 0x2F, 0x39, 0x3A, 0x3B, 0x3D, 0x3F, 0x64, 0x7F], ¬readWrite ((a : Addr).toNat) ∧ (a : Addr) ≠ 0x3C := by
  refine ⟨?_, by decide, ⟨by intro i; cases i <;> decide, by intro i; cases i <;> decide⟩, ?_⟩ <;> (unfold readWrite; decide)

theorem witness_ReservedAddressesHoldNoState :
    ∀ a ∈ [0x2E, 0x2F, 0x3D, 0x3F, 0x64, 0x7F], reserved ((a : Addr).toNat) := by unfold reserved; decide

theorem witness_ReadOnlyRegistersIgnoreWrites :
    ∀ a ∈ [0x39, 0x3A, 0x3B], (a : Addr).toNat = 0x39 ∨ (a : Addr).toNat = 0x3A ∨ (a : Addr).toNat = 0x3B := by decide

theorem witness_AWriteStepIsTheWriteTransaction :
    let e := Edge.write 0x38 26
    let s : State := { used with bus := [e] }
    s.bus = e :: [] ∧ e.rst = false ∧ e.sel = true ∧ e.wr = true := by decide

theorem witness_AStepRunsTheDecodedCommand :
    (let s : State := { used with bus := [Edge.write 0x3C 0x0C] }
     s.bus = Edge.write 0x3C 0x0C :: [] ∧ decode 0x0C = .ok .cmp) ∧
    decodeTableWord 8 0x00 = some .nop ∧ decodeTableWord 8 0x0C = some .cmp := by decide

theorem witness_IllegalCodesReportIllegalCommand :
    0x0D ≤ (0x0D : Byte).toNat ∧ 0x0D ≤ (0xFF : Byte).toNat := by decide

theorem witness_TheOpcodeWordsDecode : 0x0D ≤ (0x0D : Byte).toNat ∧ 0x0D ≤ (0xFF : Byte).toNat := by decide

theorem witness_EveryStepKeepsTheReportsLegal :
    used.reportsLegal ∧ ∃ t, step (used.withFetchWord 8 0x0C) = .next t :=
  ⟨⟨by decide, by decide⟩, _, rfl⟩

theorem witness_OnlyACommandChangesTheReports :
    let s : State := { used with bus := [Edge.write 0x39 0xFF] }
    (nextEdge s).rst = false ∧ ¬((nextEdge s).sel = true ∧ (nextEdge s).wr = true ∧ (nextEdge s).addr = 0x3C) ∧
      ∃ t, step s = .next t :=
  ⟨by decide, by decide, _, rfl⟩

theorem witness_OperandWritesCommute :
    ((0x00 : Addr) ≠ 0x63 ∧ (0x00 : Addr) ≠ 0x3C ∧ (0x63 : Addr) ≠ 0x3C) ∧
    (0x3B : Addr) ≠ 0x3D ∧ (0x3B : Addr) ≠ 0x3C ∧ (0x3D : Addr) ≠ 0x3C := by decide

theorem witness_LoadingARegisterByteByByte :
    2 ^ 128 - 1 < 2 ^ 128 ∧ (-1 : Int) < 2 ^ 64 ∧ (2 ^ 64 - 1 : Int) < 2 ^ 64 ∧ (-1 : Int) < 2 ^ 32 ∧
      (2 ^ 32 - 1 : Int) < 2 ^ 32 ∧ 65535 < 2 ^ 16 ∧ 2 ^ 64 - 1 < 2 ^ 64 := by decide

theorem witness_TheBase32DecodeTable :
    (∀ c ∈ [0x30, 0x39], 0x30 ≤ (c : Byte).toNat ∧ (c : Byte).toNat ≤ 0x39) ∧
    (('A', 'a', (10 : BitVec 5)) ∈ letterRows 22 ∧ (0x41 : Byte).toNat = 'A'.toNat) ∧
    (('Z', 'z', (31 : BitVec 5)) ∈ letterRows 22 ∧ (0x7A : Byte).toNat = 'z'.toNat) ∧
    ∀ c ∈ [0x00, 0x2F, 0x3A, 0x40, 0x5B, 0x60, 0x7B, 0xFF],
      (c : Byte).toNat ≤ 0x2F ∨ (0x3A ≤ (c : Byte).toNat ∧ (c : Byte).toNat ≤ 0x40) ∨
        (0x5B ≤ (c : Byte).toNat ∧ (c : Byte).toNat ≤ 0x60) ∨ 0x7B ≤ (c : Byte).toNat := by decide

theorem witness_TheHexDigitTables :
    (9 : BitVec 4).toNat ≤ 9 ∧ 10 ≤ (10 : BitVec 4).toNat ∧
    (∀ c ∈ [0x30, 0x39], 0x30 ≤ (c : Byte).toNat ∧ (c : Byte).toNat ≤ 0x39) ∧
    (∀ c ∈ [0x61, 0x66], 0x61 ≤ (c : Byte).toNat ∧ (c : Byte).toNat ≤ 0x66) ∧
    (∀ c ∈ [0x41, 0x46], 0x41 ≤ (c : Byte).toNat ∧ (c : Byte).toNat ≤ 0x46) ∧
    ∀ c ∈ [0x2F, 0x3A, 0x40, 0x47, 0x60, 0x67, 0xFF],
      (c : Byte).toNat < 0x30 ∨ (0x39 < (c : Byte).toNat ∧ (c : Byte).toNat < 0x41) ∨
        (0x46 < (c : Byte).toNat ∧ (c : Byte).toNat < 0x61) ∨ 0x66 < (c : Byte).toNat := by decide

/-- A text the guard refuses, at the least first value it refuses, and one it lets pass, at the greatest. -/
theorem witness_TheOverflowGuardAcceptsValuesUpToSeven :
    (∀ k < 26, b32Value 22 (charAt (buffer "8ZZZZZZZZZZZZZZZZZZZZZZZZZ") k) ≠ none) ∧
    (∀ k < 26, b32Value 22 (charAt (buffer "7ZZZZZZZZZZZZZZZZZZZZZZZZZ") k) ≠ none) := by decide

/-- The clauses of B32DEC: LEN at 25 and 27, CHAR, OVERFLOW at the first character `8`, success at `7`. -/
theorem witness_B32DecLoadsTheValueOrReports :
    ((withText "0000000000000000000000000").tlen ≠ 26 ∧ (withText "000000000000000000000000000").tlen ≠ 26) ∧
    (let s := withText "8000000000000000000000000*"
     s.tlen = 26 ∧ ∃ k < 26, val32 s k = none) ∧
    (let s := withText "80000000000000000000000000"
     s.tlen = 26 ∧ (∀ k < 26, val32 s k ≠ none) ∧ ∃ g, val32 s 0 = some g ∧ 7 < g) ∧
    (let s := withText "7ZZZZZZZZZZZZZZZZZZZZZZZZZ"
     s.tlen = 26 ∧ (∀ k < 26, val32 s k ≠ none) ∧ ∃ g, val32 s 0 = some g ∧ g ≤ 7) :=
  ⟨by decide, ⟨by decide, 25, by decide, by decide⟩, ⟨by decide, by decide, 8, by decide, by decide⟩,
    by decide, by decide, 7, by decide, by decide⟩

/-- The clauses of HEXDEC: LEN at 35, GROUP at the last hyphen, CHAR at the last digit, success. -/
theorem witness_HexDecLoadsTheValueOrReports :
    (withText "00000000-0000-0000-0000-00000000000").tlen ≠ 36 ∧
    (let s := withText "00000000-0000-0000-000000000000000-0"
     s.tlen = 36 ∧ ∃ p ∈ [8, 13, 18, 23], ch s p ≠ 0x2D) ∧
    (let s := withText "00000000-0000-0000-0000-00000000000g"
     s.tlen = 36 ∧ (∀ p ∈ [8, 13, 18, 23], ch s p = 0x2D) ∧ ∃ j < 32, hexValue (ch s (digitPos j)) = none) ∧
    (let s := withText "ffffffff-ffff-ffff-FFFF-FFFFFFFFFFFF"
     s.tlen = 36 ∧ (∀ p ∈ [8, 13, 18, 23], ch s p = 0x2D) ∧ ∀ j < 32, hexValue (ch s (digitPos j)) ≠ none) :=
  ⟨by decide, ⟨by decide, 23, by decide, by decide⟩, ⟨by decide, by decide, 31, by decide, by decide⟩, by decide⟩

theorem witness_PackFillsTheValueOrReports :
    (withScope 0x0000FFFFFFFFFFFF 0).tsw.extractLsb' 48 16 = 0 ∧
      (withScope 0x0001000000000000 0).tsw.extractLsb' 48 16 ≠ 0 := by decide

theorem witness_Sc2stStoresTheScopeOrReports :
    (withScope 0 0).psc = 0 ∧ (0 < (withScope 0 1).psc.toNat ∧ (withScope 0 1).psc.toNat ≤ 65535) ∧
      (0 < (withScope 0 65535).psc.toNat ∧ (withScope 0 65535).psc.toNat ≤ 65535) ∧
      65535 < (withScope 0 65536).psc.toNat := by decide

theorem witness_Sc2pubReadsTheScopeBackOrReports :
    ({ used with ssc := 0 } : State).ssc = 0 ∧ ({ used with ssc := 1 } : State).ssc ≠ 0 ∧
      ({ used with ssc := 0xFFFF } : State).ssc ≠ 0 := by decide

theorem witness_MakeBuildsTheIdentifierOrReports :
    (withScope 0x0001000000000000 65536).tsw.extractLsb' 48 16 ≠ 0 ∧
    (let s := withScope 0x0000FFFFFFFFFFFF 65536
     s.tsw.extractLsb' 48 16 = 0 ∧ s.psc.extractLsb' 16 16 ≠ 0) ∧
    (let s := withScope 0x0000FFFFFFFFFFFF 0
     s.tsw.extractLsb' 48 16 = 0 ∧ s.psc.extractLsb' 16 16 = 0) ∧
    (let s := withScope 0 65535
     s.tsw.extractLsb' 48 16 = 0 ∧ s.psc.extractLsb' 16 16 = 0 ∧ s.psc = 65535) := by decide

/-- The clauses of PARSEB32; the last two show that an accepted text can carry scope 0 and another. -/
theorem witness_ParseB32LoadsTheIdentifierOrReports :
    (withText "").tlen ≠ 26 ∧
    (let s := withText "8000000000000000000000000*"
     s.tlen = 26 ∧ ∃ k < 26, val32 s k = none) ∧
    (let s := withText "80000000000000000000000000"
     s.tlen = 26 ∧ (∀ k < 26, val32 s k ≠ none) ∧ ∃ g, val32 s 0 = some g ∧ 7 < g) ∧
    (let s := withText "01ARYZ6S41000000820C20A1G7"
     s.tlen = 26 ∧ (∀ k < 26, val32 s k ≠ none) ∧ (∃ g, val32 s 0 = some g ∧ g ≤ 7) ∧
       readsBase32 s 0x01563DF3648100000001020304050607 ∧
       (0x01563DF3648100000001020304050607 : BitVec 128).extractLsb' 64 16 = 0) ∧
    (let s := withText "7ZZZZZZZZZZZZZZZZZZZZZZZZZ"
     s.tlen = 26 ∧ (∀ k < 26, val32 s k ≠ none) ∧ (∃ g, val32 s 0 = some g ∧ g ≤ 7) ∧
       readsBase32 s (BitVec.allOnes 128) ∧ (BitVec.allOnes 128).extractLsb' 64 16 ≠ 0) :=
  ⟨by decide, ⟨by decide, 25, by decide, by decide⟩, ⟨by decide, by decide, 8, by decide, by decide⟩,
    ⟨by decide, by decide, ⟨0, by decide, by decide⟩, ⟨by decide, by decide⟩, by decide⟩,
    by decide, by decide, ⟨7, by decide, by decide⟩, ⟨by decide, by decide⟩, by decide⟩

/-- The clauses of PARSEHEX, likewise. -/
theorem witness_ParseHexLoadsTheIdentifierOrReports :
    (withText "").tlen ≠ 36 ∧
    (let s := withText "00000000-0000-0000-000000000000000-0"
     s.tlen = 36 ∧ ∃ p ∈ [8, 13, 18, 23], ch s p ≠ 0x2D) ∧
    (let s := withText "00000000-0000-0000-0000-00000000000g"
     s.tlen = 36 ∧ (∀ p ∈ [8, 13, 18, 23], ch s p = 0x2D) ∧ ∃ j < 32, hexValue (ch s (digitPos j)) = none) ∧
    (let s := withText "01563df3-6481-0000-0001-020304050607"
     (s.tlen = 36 ∧ (∀ p ∈ [8, 13, 18, 23], ch s p = 0x2D) ∧ ∀ j < 32, hexValue (ch s (digitPos j)) ≠ none) ∧
       readsHex s 0x01563DF3648100000001020304050607 ∧
       (0x01563DF3648100000001020304050607 : BitVec 128).extractLsb' 64 16 = 0) ∧
    (let s := withText "01563df3-6481-0001-0001-020304050607"
     (s.tlen = 36 ∧ (∀ p ∈ [8, 13, 18, 23], ch s p = 0x2D) ∧ ∀ j < 32, hexValue (ch s (digitPos j)) ≠ none) ∧
       readsHex s 0x01563DF3648100010001020304050607 ∧
       (0x01563DF3648100010001020304050607 : BitVec 128).extractLsb' 64 16 ≠ 0) :=
  ⟨by decide, ⟨by decide, 23, by decide, by decide⟩, ⟨by decide, by decide, 31, by decide, by decide⟩,
    ⟨by decide, ⟨by decide, by decide, by decide⟩, by decide⟩, by decide, ⟨by decide, by decide, by decide⟩, by decide⟩

theorem witness_CmpWritesTheUnsignedOrder :
    ({ used with v := ulid, w := ulid } : State).v = ({ used with v := ulid, w := ulid } : State).w ∧
    ({ used with w := 1, v := 0 } : State).v.toNat < ({ used with w := 1, v := 0 } : State).w.toNat ∧
    ({ used with w := 0 } : State).w.toNat < ({ used with w := 0 } : State).v.toNat := by decide

theorem witness_AFailingCommandWritesOnlyItsReport :
    (∃ t, exec .nop used = .next t) ∧ ∃ t, exec .b32dec used = .next t := ⟨⟨_, rfl⟩, _, rfl⟩

theorem witness_CommandsWriteOnlyTheirRegisters :
    (∃ t, exec .nop used = .next t) ∧ Instr.nop ∉ [Instr.b32dec, .hexdec, .pack, .make, .parseb32, .parsehex] ∧
    Instr.nop ∉ [Instr.unpack, .parseb32, .parsehex] ∧ Instr.nop ∉ [Instr.sc2pub, .make, .parseb32, .parsehex] ∧
    Instr.nop ∉ [Instr.unpack, .sc2st, .make, .parseb32, .parsehex] ∧ Instr.nop ∉ [Instr.b32enc, .hexenc] ∧
    Instr.nop ≠ .hexenc ∧ Instr.nop ≠ .cmp := ⟨⟨_, rfl⟩, by decide⟩

/-- Two states that a Base32 decoder cannot tell apart, with different `T[26]` and `V`; and two that it cannot tell apart
because the length is wrong. -/
theorem witness_CommandsReadOnlyTheirRegisters :
    agreeOnOperands .parseb32 (withText "01ARYZ6S410FM000820C20A1G7")
      { withText "01ARYZ6S410FM000820C20A1G7*" with tlen := 26, v := 0 } ∧
    agreeOnOperands .parsehex (withText "01ARYZ6S410FM000820C20A1G7") (withText "00000000000000000000000000") ∧
    agreeOnOperands .make (withScope stamp 1000) { withScope stamp 1000 with v := 0, ssc := 9 } :=
  ⟨⟨by decide, fun _ => by decide⟩, ⟨by decide, fun h => absurd h (by decide)⟩, by decide, by decide, by decide⟩

theorem witness_EachCommandReportsOnlyItsErrors : ∃ t, exec .sc2pub used = .next t := ⟨_, rfl⟩

theorem witness_AReissuedFailureFailsTheSameWay : ∃ t, exec .b32dec used = .next t ∧ t.status ≠ 0 :=
  ⟨{ used with status := 1, detail := 1 }, congrArg Host.Outcome.next (by decide), by decide⟩

theorem witness_Base32EncodesTheCanonicalForm : b32Decode hardware 26 (buffer "01aryz6s41ofmooo82oc2oaig7") = .ok ulid := by
  decide

theorem witness_HexRoundTrips : hexDecode 36 (buffer "01563DF3-6481-03e8-0001-020304050607") = .ok ulid := by decide

theorem witness_PackAndUnpackAreInverse : (withScope 0x0000FFFFFFFFFFFF 0).tsw.extractLsb' 48 16 = 0 := by decide

theorem witness_TheScopeMapsRoundTrip :
    (1 ≤ (1 : BitVec 32).toNat ∧ (65535 : BitVec 32).toNat ≤ 65535) ∧ 1 ≤ (1 : BitVec 16).toNat ∧
      1 ≤ (0xFFFF : BitVec 16).toNat ∧ (65534 : BitVec 32).toNat ≤ 65534 ∧ (0 : BitVec 32).toNat ≤ 65534 ∧
      toPublic ⟨false, 22⟩ 1 = .ok 1 ∧ toPublic ⟨false, 22⟩ 0xFFFF = .ok 0xFFFF := by decide

theorem witness_TheTextSortsByTimestamp : (0xFFFFFFFFFFFE : BitVec 48).toNat < (0xFFFFFFFFFFFF : BitVec 48).toNat := by decide

theorem witness_TheFirstTenCharactersAreTheTimestamp : (0 : BitVec 48) ≠ 1 := by decide

theorem witness_IdentifierCommandsLeaveAnIdentifier :
    Instr.make ∈ [Instr.make, .parseb32, .parsehex] ∧ ∃ t, exec .make (withScope 0 0) = .next t ∧ t.status = 0 :=
  ⟨by decide, _, rfl, by decide⟩

theorem witness_AnIdentifierSurvivesBothTextForms :
    (withScope 0x0000FFFFFFFFFFFF 65535).tsw.extractLsb' 48 16 = 0 ∧
      (withScope 0x0000FFFFFFFFFFFF 65535).psc.extractLsb' 16 16 = 0 := by decide

theorem witness_AnIdentifierSurvivesUnderEveryParameter :
    (∃ m, makeCmd hardware (withScope stamp 0) = .ok m) ∧ ∃ m, makeCmd ⟨true, 27⟩ (withScope stamp 65535) = .ok m :=
  ⟨⟨_, rfl⟩, _, rfl⟩

/-- Each of the four commands ends with STATUS 0 and stored scope 65535 somewhere, and otherwise somewhere. -/
theorem witness_TheReadbackParameterTouchesOnlyPsc :
    (∀ r ∈ [sc2pubCmd ⟨false, 22⟩ { used with ssc := 0xFFFF }, makeCmd ⟨false, 22⟩ (withScope stamp 0),
        parseb32Cmd ⟨false, 22⟩ (withText "7ZZZZZZZZZZZZZZZZZZZZZZZZZ"),
        parsehexCmd ⟨false, 22⟩ (withText "01563df3-6481-ffff-0001-020304050607")],
      (complete used r).status = 0 ∧ (complete used r).ssc = 0xFFFF) ∧
    ∀ r ∈ [sc2pubCmd ⟨false, 22⟩ { used with ssc := 0xFFFE }, makeCmd ⟨false, 22⟩ (withScope stamp 65534),
        parseb32Cmd ⟨false, 22⟩ (withText "8ZZZZZZZZZZZZZZZZZZZZZZZZZ"),
        parsehexCmd ⟨false, 22⟩ (withText "01563df3-6481-fffe-0001-020304050607")],
      ¬((complete used r).status = 0 ∧ (complete used r).ssc = 0xFFFF) := by decide

theorem witness_TheAliasParameterTouchesOnlyU :
    ∀ k < 26, charAt (buffer "01aryz6s41ofmooo82oc2oaig7") k ≠ 0x55 ∧
      charAt (buffer "01aryz6s41ofmooo82oc2oaig7") k ≠ 0x75 := by decide

end Sys2Proof.Tests
end

section
/-! The registers after reset (spec/10_state.md R37). -/

namespace Sys2Proof.Machine

open Sys2Proof.Claims

/-! ### The character `0x00` and the text buffer after reset -/

@[simp] theorem charAt_reset (k : Nat) : charAt State.reset.t k = 0 := by
  by_cases h : k < 36
  · simp [charAt, h, State.reset]
  · simp [charAt, h]

/-- The code `0x00` is none of the four confusable letters and stands nowhere in the alphabet, so it has no value
whatever `U_ALIAS_VALUE` is (spec/30_encoding.md R92). -/
@[simp] theorem b32Value_zero (u : BitVec 5) : b32Value u 0 = none := by
  have hfold : foldCase 0 = 0 := by decide
  have hletters : (0 : Byte) ≠ ascii 'I' ∧ (0 : Byte) ≠ ascii 'L' ∧ (0 : Byte) ≠ ascii 'O' ∧ (0 : Byte) ≠ ascii 'U' := by
    decide
  have hindex : alphabetIndex 0 = none := by decide
  obtain ⟨hi, hl, ho, hu⟩ := hletters
  simp only [b32Value, hfold, hi, hl, ho, hu, or_self, if_false, hindex]

/-- The code `0x00` is no hexadecimal digit (spec/30_encoding.md R96). -/
@[simp] theorem hexValue_zero : hexValue 0 = none := by decide

/-! ### LEN is the first check of both decoders -/

theorem b32Decode_of_len_ne {len : Byte} (h : len ≠ 26) (cfg : Config) (t : Vector Byte 36) :
    b32Decode cfg len t = .error .len := if_pos h

theorem hexDecode_of_len_ne {len : Byte} (h : len ≠ 36) (t : Vector Byte 36) : hexDecode len t = .error .len := if_pos h

/-- The report of the raise of FormatError/LEN (spec/60_exceptions.md R201, R202). -/
theorem raise_len_eq_reported (s : State) : s.raise .len = reported s 1 1 := rfl

/-- A text length that fits neither form fails every command that reads the text, and at its first check. -/
theorem pseudocode_of_tlen_ne {s : State} (h26 : s.tlen ≠ 26) (h36 : s.tlen ≠ 36) (cfg : Config) {i : Instr}
    (hi : i ∈ [Instr.b32dec, .hexdec, .parseb32, .parsehex]) : pseudocode cfg i s = .error .len := by
  have hb := b32Decode_of_len_ne h26 cfg s.t
  have hh := hexDecode_of_len_ne h36 s.t
  simp only [List.mem_cons, List.not_mem_nil, or_false] at hi
  rcases hi with rfl | rfl | rfl | rfl
  · simp only [pseudocode, b32decCmd, hb]
  · simp only [pseudocode, hexdecCmd, hh]
  · simp only [pseudocode, parseb32Cmd, hb]
  · simp only [pseudocode, parsehexCmd, hh]

/-- Settles O1: the registers are the literals of the reset state, its characters are all `0x00`, which neither form
accepts, and its text length 0 fits neither form. -/
theorem resetZeroesEveryRegister : Obligations.ResetZeroesEveryRegister := by
  refine ⟨⟨rfl, rfl, rfl, rfl, rfl, rfl, fun k _ => charAt_reset k, rfl, rfl, rfl, rfl⟩, by decide, fun k _ => ?_,
    fun i hi => ?_⟩
  · simp only [ch, charAt_reset, b32Value_zero, hexValue_zero, and_self]
  · have h26 : State.reset.tlen ≠ 26 := by decide
    have h36 : State.reset.tlen ≠ 36 := by decide
    rw [exec_eq, pseudocode_of_tlen_ne h26 h36 hardware hi, complete_error, raise_len_eq_reported]

end Sys2Proof.Machine
end

section
/-! The reserved addresses of the register map (spec/20_memory.md R54, R55). -/

namespace Sys2Proof.Machine

open Sys2Proof.Claims

/-- The register map gives the location `.reserved` to the 33 reserved addresses and to no other (spec/20_memory.md R54,
R55). -/
theorem locOf_eq_reserved_iff (a : Addr) : locOf a = .reserved ↔ reserved a.toNat := by
  unfold reserved
  revert a
  decide

/-- A byte written to a location that stores none changes nothing, unless the location is the command port
(spec/20_memory.md R52). -/
theorem memWrite_of_not_stores {a : Addr} (h : (locOf a).stores = false) (hc : locOf a ≠ .cmd) (d : Byte) (s : State) :
    memWrite a d s = .next s := by
  rcases memWrite_cases a d s with ⟨ha, -⟩ | ⟨-, hw⟩
  · exact absurd ((locOf_eq_cmd_iff a).mpr ha) hc
  · rw [hw, writeLoc_of_not_stores s _ d h]

/-- Settles O7: the map places `.reserved` at every reserved address, and that location reads `0x00`, stores no byte and
is not the command port. -/
theorem reservedAddressesHoldNoState : Obligations.ReservedAddressesHoldNoState := by
  intro s a d hres
  have hloc : locOf a = .reserved := (locOf_eq_reserved_iff a).mpr hres
  have hread : s.memRead a = 0 := by rw [State.memRead, hloc, State.readLoc]
  have hstores : (locOf a).stores = false := by rw [hloc]; rfl
  have hcmd : locOf a ≠ .cmd := by rw [hloc]; decide
  exact ⟨hread, memWrite_of_not_stores hstores hcmd d s⟩

end Sys2Proof.Machine
end

section
/-! The opcode map (spec/30_encoding.md R82, R83). -/

namespace Sys2Proof

/-- The code of every command decodes to that command (spec/30_encoding.md R82). -/
@[simp] theorem decode_encode (i : Instr) : decode (encode i) = .ok i := by cases i <;> rfl

/-- The codes above the last row of the opcode map are rejected by name (spec/30_encoding.md R83). -/
theorem decode_of_illegal (c : Byte) (h : 0x0D ≤ c.toNat) : decode c = .error (.illegalCommand c) := by
  unfold decode
  split
  case h_14 => rfl
  all_goals omega

/-- Settles O18: each word is the code of its command, and every code from `0x0D` on is illegal. -/
theorem theOpcodeWordsDecode : Obligations.TheOpcodeWordsDecode :=
  ⟨decode_encode .nop, decode_encode .b32enc, decode_encode .b32dec, decode_encode .hexenc, decode_encode .hexdec,
    decode_encode .pack, decode_encode .unpack, decode_encode .sc2st, decode_encode .sc2pub, decode_encode .make,
    decode_encode .parseb32, decode_encode .parsehex, decode_encode .cmp, decode_of_illegal⟩

end Sys2Proof
end

section
/-! The character tables of the two text forms (spec/30_encoding.md R90 to R92, R96). -/

namespace Sys2Proof.Machine

open Sys2Proof.Claims

/-! ### The Base32 alphabet -/

/-- Settles O20, by comparing the two tables entry by entry. -/
theorem theAlphabetIsTheStatedString : Obligations.TheAlphabetIsTheStatedString := by
  unfold Obligations.TheAlphabetIsTheStatedString
  decide

/-- The first ten characters of the alphabet are the decimal digits (spec/30_encoding.md R90). -/
theorem alphabet_toNat_of_le_nine : ∀ g : BitVec 5, g.toNat ≤ 9 → (alphabet g).toNat = 0x30 + g.toNat := by decide

/-- The alphabet consists of decimal digits and upper-case letters (spec/30_encoding.md R90). -/
theorem alphabet_toNat_range : ∀ g : BitVec 5, (0x30 ≤ (alphabet g).toNat ∧ (alphabet g).toNat ≤ 0x39) ∨
    (0x41 ≤ (alphabet g).toNat ∧ (alphabet g).toNat ≤ 0x5A) := by decide

/-- A code that is no character of the alphabet has no index in it. -/
theorem alphabetIndex_eq_none {c : Byte} (h : ∀ g, alphabet g ≠ c) : alphabetIndex c = none := by
  simp [alphabetIndex, h]

/-! ### The Base32 decode table -/

/-- Outside the lower-case letters folding the case changes nothing (spec/30_encoding.md R91). -/
theorem foldCase_eq_self {c : Byte} (h : c.toNat < 0x61 ∨ 0x7A < c.toNat) : foldCase c = c :=
  if_neg fun ⟨hlo, hhi⟩ => by
    have hlo' : 0x61 ≤ c.toNat := hlo
    have hhi' : c.toNat ≤ 0x7A := hhi
    omega

/-- A code and its folded code have one value (spec/30_encoding.md R91). -/
theorem b32Value_congr_foldCase (u : BitVec 5) {c d : Byte} (h : foldCase c = foldCase d) :
    b32Value u c = b32Value u d := by simp only [b32Value, h]

/-- A code outside the digits and the letters of either case is invalid (spec/30_encoding.md R92). -/
theorem b32Value_eq_none (u : BitVec 5) {c : Byte} (h : c.toNat ≤ 0x2F ∨ (0x3A ≤ c.toNat ∧ c.toNat ≤ 0x40) ∨
    (0x5B ≤ c.toNat ∧ c.toNat ≤ 0x60) ∨ 0x7B ≤ c.toNat) : b32Value u c = none := by
  have hfold : foldCase c = c := foldCase_eq_self (by omega)
  have hindex : alphabetIndex c = none := alphabetIndex_eq_none fun g hg => by
    have := alphabet_toNat_range g
    rw [hg] at this
    omega
  have hne : ∀ d : Byte, 0x41 ≤ d.toNat ∧ d.toNat ≤ 0x5A → c ≠ d := by
    rintro d hd rfl
    omega
  have hI : c ≠ ascii 'I' := hne _ (by decide)
  have hL : c ≠ ascii 'L' := hne _ (by decide)
  have hO : c ≠ ascii 'O' := hne _ (by decide)
  have hU : c ≠ ascii 'U' := hne _ (by decide)
  simp only [b32Value, hfold, hindex, hI, hL, hO, hU, or_self, if_false]

/-- A decimal digit is the alphabet's character for its own value (spec/30_encoding.md R90, R92). -/
theorem b32Value_digit (u : BitVec 5) {c : Byte} (h : 0x30 ≤ c.toNat ∧ c.toNat ≤ 0x39) :
    b32Value u c = some (BitVec.ofNat 5 (c.toNat - 0x30)) := by
  have hval : (BitVec.ofNat 5 (c.toNat - 0x30)).toNat = c.toNat - 0x30 := by
    rw [BitVec.toNat_ofNat]
    omega
  have hc : c = alphabet (BitVec.ofNat 5 (c.toNat - 0x30)) := BitVec.eq_of_toNat_eq <| by
    rw [alphabet_toNat_of_le_nine _ (by omega)]
    omega
  conv_lhs => rw [hc]
  exact b32Value_alphabet u _

/-- What a row of the decode table says of its two letters: they are one letter in the two cases, and the upper-case one
is the alphabet's character for the row's value or one of the four confusable letters (spec/30_encoding.md R91). -/
theorem letterRows_cases : ∀ (u : BitVec 5), ∀ r ∈ letterRows u,
    foldCase (ascii r.1) = ascii r.1 ∧ foldCase (ascii r.2.1) = ascii r.1 ∧
    (ascii r.1 = alphabet r.2.2 ∨ (ascii r.1 = ascii 'I' ∨ ascii r.1 = ascii 'L') ∧ r.2.2 = 1 ∨
      ascii r.1 = ascii 'O' ∧ r.2.2 = 0 ∨ ascii r.1 = ascii 'U' ∧ r.2.2 = u) := by decide

/-- The letter of a row has the row's value, in either case. -/
theorem b32Value_letterRow {u : BitVec 5} {r : Char × Char × BitVec 5} (hr : r ∈ letterRows u) {c : Byte}
    (hc : c = ascii r.1 ∨ c = ascii r.2.1) : b32Value u c = some r.2.2 := by
  obtain ⟨hupper, hlower, hrow⟩ := letterRows_cases u r hr
  have hfold : foldCase c = foldCase (ascii r.1) := by
    rcases hc with rfl | rfl
    · rfl
    · rw [hlower, hupper]
  rw [b32Value_congr_foldCase u hfold]
  rcases hrow with h | ⟨h | h, hv⟩ | ⟨h, hv⟩ | ⟨h, hv⟩
  · rw [h, b32Value_alphabet]
  all_goals rw [h, hv]; rfl

/-- Settles O21: digits and most letters are characters of the alphabet, the confusable letters are substituted before
the alphabet is searched, and no other code is in it. -/
theorem theBase32DecodeTable : Obligations.TheBase32DecodeTable := by
  refine ⟨rfl, fun u c => ⟨b32Value_digit u, fun r hr hc => b32Value_letterRow hr ?_, b32Value_eq_none u⟩⟩
  have hcode : ∀ {x : Char}, c.toNat = x.toNat → c = ascii x := fun h => by
    rw [ascii, ← h, BitVec.ofNat_toNat, BitVec.setWidth_eq]
  exact hc.imp hcode hcode

/-! ### The hex digit tables -/

theorem hexDigit_toNat_of_le_nine {d : BitVec 4} (h : d.toNat ≤ 9) : (hexDigit d).toNat = 0x30 + d.toNat := by
  rw [hexDigit, if_pos (by omega), BitVec.toNat_ofNat]
  omega

theorem hexDigit_toNat_of_ten_le {d : BitVec 4} (h : 10 ≤ d.toNat) : (hexDigit d).toNat = 0x61 + (d.toNat - 10) := by
  rw [hexDigit, if_neg (by omega), BitVec.toNat_ofNat]
  omega

/-- `hex_value` with its three ranges of codes as ranges of numbers (spec/30_encoding.md R96). -/
theorem hexValue_eq (c : Byte) : hexValue c =
    if 0x30 ≤ c.toNat ∧ c.toNat ≤ 0x39 then some (BitVec.ofNat 4 (c.toNat - 0x30))
    else if 0x61 ≤ c.toNat ∧ c.toNat ≤ 0x66 then some (BitVec.ofNat 4 (c.toNat - 0x61 + 10))
    else if 0x41 ≤ c.toNat ∧ c.toNat ≤ 0x46 then some (BitVec.ofNat 4 (c.toNat - 0x41 + 10))
    else none := rfl

/-- Settles O22: a nibble is below 10 or not, and the three ranges of input codes exclude each other. -/
theorem theHexDigitTables : Obligations.TheHexDigitTables := by
  refine ⟨fun d => ⟨hexDigit_toNat_of_le_nine, hexDigit_toNat_of_ten_le⟩,
    fun c => ⟨fun h => ?_, fun h => ?_, fun h => ?_, fun h => ?_⟩⟩
  · rw [hexValue_eq, if_pos h]
  · rw [hexValue_eq, if_neg (by omega), if_pos h]
  · rw [hexValue_eq, if_neg (by omega), if_neg (by omega), if_pos h]
  · rw [hexValue_eq, if_neg (by omega), if_neg (by omega), if_neg (by omega)]

end Sys2Proof.Machine
end

section
/-! The slices of a value that the characters of form A carry (spec/30_encoding.md R89, R93). -/

namespace Sys2Proof.Machine

open Sys2Proof.Claims

/-- The model cuts the group out where the rule shifts it down (spec/30_encoding.md R89). -/
theorem b32Group_eq_group (n : BitVec 128) (k : Nat) : b32Group n k = group n k := by
  apply BitVec.eq_of_getLsbD_eq
  intro j hj
  simp only [b32Group, group, BitVec.getLsbD_extractLsb', BitVec.getLsbD_ushiftRight, Nat.zero_add]

/-- The first group is the two zero bits and the three top bits of the value. -/
theorem b32Group_zero_eq (n : BitVec 128) : b32Group n 0 = 0b00#2 ++ n.extractLsb' 125 3 := by
  rw [b32Group, BitVec.extractLsb'_append_eq_ite, dif_pos (by decide), dif_neg (by decide)]
  rfl

/-- Every further group lies inside the value. -/
theorem b32Group_succ (n : BitVec 128) (k : Nat) : b32Group n (k + 1) = n.extractLsb' (5 * (24 - k)) 5 := by
  rw [b32Group, show 25 - (k + 1) = 24 - k by omega]
  exact BitVec.extractLsb'_append_eq_of_add_le (by omega)

/-- A slice of a byte is a slice of the value. -/
theorem extractLsb'_vbyte (n : BitVec 128) (i s l : Nat) (h : s + l ≤ 8) :
    (vbyte n i).extractLsb' s l = n.extractLsb' (8 * (15 - i) + s) l := by
  apply BitVec.eq_of_getLsbD_eq
  intro j hj
  have h8 : s + j < 8 := by omega
  simp only [vbyte, BitVec.getLsbD_extractLsb', hj, h8, decide_true, Bool.true_and, Nat.add_assoc]

/-- The table of byte slices lists the 26 groups: a slice over a byte boundary is two adjacent slices of the value, and
what is left is to compare the 26 positions. -/
theorem byteSlices_eq_map (n : BitVec 128) : byteSlices n = (List.range 26).map (b32Group n) := by
  have join : ∀ {a b p q : Nat}, a = b + q → n.extractLsb' a p ++ n.extractLsb' b q = n.extractLsb' b (p + q) :=
    BitVec.extractLsb'_append_extractLsb'_eq_extractLsb'
  have groups : (List.range 26).map (b32Group n) =
      (0b00#2 ++ n.extractLsb' 125 3) :: (List.range 25).map fun k => n.extractLsb' (5 * (24 - k)) 5 := by
    rw [List.range_succ_eq_map, List.map_cons, List.map_map, b32Group_zero_eq]
    exact congrArg _ (List.map_congr_left fun k _ => b32Group_succ n k)
  rw [groups]
  simp only [byteSlices, extractLsb'_vbyte, Nat.reduceLeDiff, Nat.reduceAdd, join]
  rfl

/-- Settles O23: entry `k` of the table is group `k`, and the encoder writes the alphabet's character for it. -/
theorem eachCharacterCarriesItsByteSlice : Obligations.EachCharacterCarriesItsByteSlice := by
  intro n k hk
  have hslice : (byteSlices n).getD k 0 = b32Group n k := by simp [byteSlices_eq_map, hk]
  exact ⟨by rw [b32Encode_getElem, hslice], by rw [hslice, b32Group_eq_group]⟩

end Sys2Proof.Machine
end

section
/-! The order of the values, of their digits and of the two text forms (spec/30_encoding.md R98). -/

namespace Sys2Proof.Machine

open Sys2Proof.Claims

/-! ### The order of strings -/

/-- String order is the library's lexicographic order of lists. -/
theorem textLt_iff_lt (xs ys : List Byte) : textLt xs ys = true ↔ xs < ys := by
  induction xs, ys using textLt.induct with
  | case1 xs => simp [textLt]
  | case2 y ys => simp [textLt]
  | case3 x xs y ys ih => simp [textLt, List.cons_lt_cons_iff, ih]

/-- Of two texts of one length the smaller has the smaller character at the first position where they differ. -/
theorem textLt_toList_iff {m : Nat} (x y : Vector Byte m) : textLt x.toList y.toList = true ↔
    ∃ i, ∃ h : i < m, (∀ j (hj : j < i), x[j] = y[j]) ∧ x[i] < y[i] := by
  rw [textLt_iff_lt, Vector.lt_toList, Vector.lt_iff_exists]

/-! ### The order of values is the order of their first differing digits -/

theorem toNat_lt_iff_bytesBefore (a b : BitVec 128) : a.toNat < b.toNat ↔ bytesBefore a b := by
  have bytes : ∀ n : BitVec 128, concatDigits 8 (vbyte n) 16 = n := concatDigits_extract (w := 8) (by decide) 16
  have h := concatDigits_lt_iff (vbyte a) (vbyte b) 16
  rwa [bytes, bytes] at h

theorem toNat_lt_iff_hexNibble (a b : BitVec 128) : a.toNat < b.toNat ↔
    ∃ i < 32, (∀ j < i, hexNibble a j = hexNibble b j) ∧ hexNibble a i < hexNibble b i := by
  have h := concatDigits_lt_iff (hexNibble a) (hexNibble b) 32
  rwa [concatDigits_hexNibble, concatDigits_hexNibble] at h

/-- The two zero bits before a value do not change the number. -/
theorem toNat_lt_iff_b32Group (a b : BitVec 128) : a.toNat < b.toNat ↔
    ∃ i < 26, (∀ j < i, b32Group a j = b32Group b j) ∧ b32Group a i < b32Group b i := by
  have value : ∀ n : BitVec 128, (concatDigits 5 (b32Group n) 26).toNat = n.toNat := fun n => by
    rw [concatDigits_b32Group, BitVec.toNat_append]
    simp
  have h := concatDigits_lt_iff (b32Group a) (b32Group b) 26
  rwa [value, value] at h

/-! ### The two alphabets are in code order -/

@[simp] theorem alphabet_lt_alphabet_iff : ∀ g h : BitVec 5, alphabet g < alphabet h ↔ g < h := by decide

@[simp] theorem hexDigit_lt_hexDigit_iff : ∀ d e : BitVec 4, hexDigit d < hexDigit e ↔ d < e := by decide

@[simp] theorem alphabet_inj {g h : BitVec 5} : alphabet g = alphabet h ↔ g = h :=
  ⟨fun e => by simpa using congrArg (b32Value 0) e, congrArg alphabet⟩

@[simp] theorem hexDigit_inj {d e : BitVec 4} : hexDigit d = hexDigit e ↔ d = e :=
  ⟨fun h => by simpa using congrArg hexValue h, congrArg hexDigit⟩

/-! ### The positions of form B -/

theorem hexpos_strictMono : StrictMono hexpos := by
  intro i j h
  unfold hexpos
  split_ifs <;> omega

/-- Every position of form B is a hyphen's or a digit's (spec/30_encoding.md R97). -/
theorem hexPosition_cases : ∀ p < 36, p ∈ hyphenPositions ∨ ∃ j < 32, hexpos j = p := by decide

/-! ### The order of the two text forms -/

theorem toNat_lt_iff_textLt_b32Encode (a b : BitVec 128) :
    a.toNat < b.toNat ↔ textLt (b32Encode a).toList (b32Encode b).toList = true := by
  simp only [toNat_lt_iff_b32Group, textLt_toList_iff, b32Encode_getElem, alphabet_lt_alphabet_iff, alphabet_inj,
    exists_prop]

/-- The forms B of two values agree on the positions before digit `i` exactly when their digits before it agree: at the
hyphens any two agree. -/
theorem hexEncode_agree_before_iff (a b : BitVec 128) {i : Nat} (hi : i < 32) :
    (∀ p (hp : p < hexpos i),
      (hexEncode a)[p]'(hp.trans (hexpos_lt i hi)) = (hexEncode b)[p]'(hp.trans (hexpos_lt i hi))) ↔
    ∀ j < i, hexNibble a j = hexNibble b j := by
  constructor
  · intro h j hj
    have hp := h (hexpos j) (hexpos_strictMono hj)
    rwa [hexEncode_hexpos _ _ (hj.trans hi), hexEncode_hexpos _ _ (hj.trans hi), hexDigit_inj] at hp
  · intro h p hp
    have hp36 := hp.trans (hexpos_lt i hi)
    rcases hexPosition_cases p hp36 with hy | ⟨j, hj, rfl⟩
    · rw [hexEncode_hyphen a p hy hp36, hexEncode_hyphen b p hy hp36]
    · rw [hexEncode_hexpos a j hj, hexEncode_hexpos b j hj, h j (hexpos_strictMono.lt_iff_lt.mp hp)]

theorem toNat_lt_iff_textLt_hexEncode (a b : BitVec 128) :
    a.toNat < b.toNat ↔ textLt (hexEncode a).toList (hexEncode b).toList = true := by
  rw [toNat_lt_iff_hexNibble, textLt_toList_iff]
  constructor
  · rintro ⟨i, hi, heq, hlt⟩
    refine ⟨hexpos i, hexpos_lt i hi, (hexEncode_agree_before_iff a b hi).mpr heq, ?_⟩
    rwa [hexEncode_hexpos a i hi, hexEncode_hexpos b i hi, hexDigit_lt_hexDigit_iff]
  · rintro ⟨p, hp, heq, hlt⟩
    rcases hexPosition_cases p hp with hy | ⟨i, hi, rfl⟩
    · rw [hexEncode_hyphen a p hy hp, hexEncode_hyphen b p hy hp] at hlt
      exact absurd hlt (BitVec.lt_irrefl _)
    · rw [hexEncode_hexpos a i hi, hexEncode_hexpos b i hi, hexDigit_lt_hexDigit_iff] at hlt
      exact ⟨i, hi, (hexEncode_agree_before_iff a b hi).mp heq, hlt⟩

/-- Settles O50: bytes, groups and nibbles are digits of the value, most significant first, and both alphabets are in
code order. -/
theorem bothTextFormsPreserveOrder : Obligations.BothTextFormsPreserveOrder := fun a b =>
  ⟨toNat_lt_iff_bytesBefore a b, toNat_lt_iff_textLt_b32Encode a b, toNat_lt_iff_textLt_hexEncode a b⟩

end Sys2Proof.Machine
end

section
/-! The Base32 commands (spec/40_base32.md R121, R123, R125) and the order of form A by timestamp (R127). -/

namespace Sys2Proof.Machine

open Sys2Proof.Claims

/-! ### B32ENC -/

/-- Settles O26: the text written is form A of `V` over the first 26 characters of `T`. -/
theorem b32EncWritesTheText : Obligations.B32EncWritesTheText := by
  refine ⟨decode_encode .b32enc, fun s => ⟨putText s.t (b32Encode s.v), rfl, fun k hk => ?_,
    fun k hk _ => charAt_putText_ge _ _ k hk⟩⟩
  rw [charAt_putText_lt _ _ k hk (by omega), b32Encode_getElem, b32Group_eq_group]

/-! ### When each check of the decoder fires -/

section
variable {cfg : Config} {len : Byte} {t : Vector Byte 36}

/-- CHAR fires as soon as the length is right and a character has no value. -/
theorem b32Decode_of_char_invalid (hlen : len = 26) {k : Nat} (hk : k < 26)
    (hinv : b32Value cfg.uAliasValue (charAt t k) = none) : b32Decode cfg len t = .error .char := by
  rcases b32Decode_cases cfg len t with ⟨hne, -⟩ | ⟨-, -, hchar⟩ | ⟨-, hvalid, -⟩ | ⟨-, n, -, hgroups⟩
  · exact absurd hlen hne
  · exact hchar
  · exact absurd hinv (hvalid k hk)
  · exact absurd ((hgroups k hk).symm.trans hinv) (Option.some_ne_none _)

/-- OVERFLOW fires when every character has a value and the first one exceeds 7: as group 0 of a value it would be at
most 7. -/
theorem b32Decode_of_overflow (hlen : len = 26) (hvalid : ∀ k < 26, b32Value cfg.uAliasValue (charAt t k) ≠ none)
    {g : BitVec 5} (hfirst : b32Value cfg.uAliasValue (charAt t 0) = some g) (hg : 7 < g) :
    b32Decode cfg len t = .error .overflow := by
  rcases b32Decode_cases cfg len t with ⟨hne, -⟩ | ⟨-, ⟨k, hk, hinv⟩, -⟩ | ⟨-, -, -, hover⟩ | ⟨-, n, -, hgroups⟩
  · exact absurd hlen hne
  · exact absurd hinv (hvalid k hk)
  · exact hover
  · have hgroup : g = b32Group n 0 := Option.some.inj (hfirst.symm.trans (hgroups 0 (by decide)))
    exact absurd (b32Group_zero_le n) (BitVec.not_le.mpr (hgroup ▸ hg))

/-- When no check fires the decoder answers the value whose groups are the characters' values. -/
theorem b32Decode_of_valid (hlen : len = 26) (hvalid : ∀ k < 26, b32Value cfg.uAliasValue (charAt t k) ≠ none)
    {g : BitVec 5} (hfirst : b32Value cfg.uAliasValue (charAt t 0) = some g) (hg : g ≤ 7) :
    ∃ n, b32Decode cfg len t = .ok n ∧ ∀ k < 26, b32Value cfg.uAliasValue (charAt t k) = some (b32Group n k) := by
  rcases b32Decode_cases cfg len t with ⟨hne, -⟩ | ⟨-, ⟨k, hk, hinv⟩, -⟩ | ⟨-, -, ⟨g', hfirst', hg'⟩, -⟩ | ⟨-, hok⟩
  · exact absurd hlen hne
  · exact absurd hinv (hvalid k hk)
  · have hgg : g = g' := Option.some.inj (hfirst.symm.trans hfirst')
    exact absurd hg (BitVec.not_le.mpr (hgg ▸ hg'))
  · exact hok

end

/-! ### B32DEC -/

theorem exec_b32dec_of_error {s : State} {c : Check} (h : b32Decode hardware s.tlen s.t = .error c) :
    exec .b32dec s = .next (s.raise c) := by
  rw [exec_b32dec, b32decCmd, h, complete_error]

theorem exec_b32dec_of_ok {s : State} {n : BitVec 128} (h : b32Decode hardware s.tlen s.t = .ok n) :
    exec .b32dec s = .next { s with v := n, status := 0, detail := 0 } := by
  rw [exec_b32dec, b32decCmd, h, complete_ok]
  rfl

/-- Settles O27: each clause is one answer of the decoder, which B32DEC reports or commits. -/
theorem b32DecLoadsTheValueOrReports : Obligations.B32DecLoadsTheValueOrReports := by
  refine ⟨decode_encode .b32dec, fun s => ⟨fun hlen => ?len, ?char, ?overflow, ?value⟩⟩
  case len => exact exec_b32dec_of_error (b32Decode_of_len_ne hlen hardware s.t)
  case char =>
    rintro hlen ⟨k, hk, hinv⟩
    exact exec_b32dec_of_error (b32Decode_of_char_invalid (cfg := hardware) hlen hk hinv)
  case overflow =>
    rintro hlen hvalid ⟨g, hfirst, hg⟩
    exact exec_b32dec_of_error (b32Decode_of_overflow (cfg := hardware) hlen hvalid hfirst hg)
  case value =>
    rintro hlen hvalid ⟨g, hfirst, hg⟩
    obtain ⟨n, hok, hgroups⟩ := b32Decode_of_valid (cfg := hardware) hlen hvalid hfirst hg
    refine ⟨n, ⟨hlen, fun k hk => ?_⟩, exec_b32dec_of_ok hok⟩
    rw [← b32Group_eq_group]
    exact hgroups k hk

/-! ### The order of form A by timestamp -/

/-- Of two numbers written side by side with others, the leading ones decide the order when they differ. -/
theorem append_toNat_lt_of_toNat_lt {m n : Nat} {x y : BitVec m} (h : x.toNat < y.toNat) (a b : BitVec n) :
    (x ++ a).toNat < (y ++ b).toNat := by
  have value : ∀ (z : BitVec m) (c : BitVec n), (z ++ c).toNat = z.toNat * 2 ^ n + c.toNat := fun z c => by
    rw [BitVec.toNat_append, ← Nat.shiftLeft_add_eq_or_of_lt c.isLt, Nat.shiftLeft_eq]
  calc (x ++ a).toNat < (x.toNat + 1) * 2 ^ n := by rw [value, Nat.succ_mul]; exact Nat.add_lt_add_left a.isLt _
    _ ≤ y.toNat * 2 ^ n := Nat.mul_le_mul_right _ h
    _ ≤ (y ++ b).toNat := by rw [value]; exact Nat.le_add_right _ _

/-- The timestamp stands in the leading bits of a value (spec/30_encoding.md R87), so the earlier timestamp has the
smaller value. -/
theorem pack_toNat_lt_of_toNat_lt {ts ts' : BitVec 48} (h : ts.toNat < ts'.toNat) (sc sc' : BitVec 16)
    (en en' : BitVec 64) : (pack ts sc en).toNat < (pack ts' sc' en').toNat :=
  append_toNat_lt_of_toNat_lt (append_toNat_lt_of_toNat_lt h sc sc') en en'

/-- Settles O51: the earlier timestamp has the smaller value, and form A keeps the order of values. -/
theorem theTextSortsByTimestamp : Obligations.TheTextSortsByTimestamp := fun _ _ sc sc' en en' h =>
  (toNat_lt_iff_textLt_b32Encode _ _).mp (pack_toNat_lt_of_toNat_lt h sc sc' en en')

end Sys2Proof.Machine
end

section
/-! Field packing (spec/41_packing.md R141 to R145): the fields of a packed value, the timestamp register as a 48-bit
timestamp with zero upper bits, and the commands PACK and UNPACK. -/

namespace Sys2Proof.Machine

open Sys2Proof.Claims

/-! ### The fields of a packed value -/

@[simp] theorem pack_timestamp (ts : BitVec 48) (sc : BitVec 16) (en : BitVec 64) :
    (pack ts sc en).extractLsb' 80 48 = ts := by
  rw [pack, BitVec.extractLsb'_append_eq_of_le (by decide)]
  exact BitVec.extractLsb'_append_eq_left

@[simp] theorem pack_scope (ts : BitVec 48) (sc : BitVec 16) (en : BitVec 64) :
    (pack ts sc en).extractLsb' 64 16 = sc := by
  rw [pack, BitVec.extractLsb'_append_eq_of_le (by decide)]
  exact BitVec.extractLsb'_append_eq_right

@[simp] theorem pack_entropy (ts : BitVec 48) (sc : BitVec 16) (en : BitVec 64) :
    (pack ts sc en).extractLsb' 0 64 = en := BitVec.extractLsb'_append_eq_right

@[simp] theorem unpack_pack (ts : BitVec 48) (sc : BitVec 16) (en : BitVec 64) :
    unpack (pack ts sc en) = (ts, sc, en) := by
  rw [unpack, pack_timestamp, pack_scope, pack_entropy]

/-- The three fields are adjacent slices that cover the value (spec/30_encoding.md R87). -/
@[simp] theorem pack_unpack (n : BitVec 128) : pack (unpack n).1 (unpack n).2.1 (unpack n).2.2 = n :=
  calc n.extractLsb' 80 48 ++ n.extractLsb' 64 16 ++ n.extractLsb' 0 64
    _ = n.extractLsb' 64 64 ++ n.extractLsb' 0 64 := by
      rw [BitVec.extractLsb'_append_extractLsb'_eq_extractLsb' (by decide)]
    _ = n := BitVec.extractLsb'_append_extractLsb'

/-! ### The timestamp register -/

/-- A timestamp zero-extended to the register stands below 16 zero bits (spec/41_packing.md R144). -/
theorem setWidth_timestamp_eq_append (ts : BitVec 48) : ts.setWidth 64 = 0#16 ++ ts :=
  BitVec.setWidth_eq_append (by decide)

@[simp] theorem upper_setWidth_timestamp (ts : BitVec 48) : (ts.setWidth 64).extractLsb' 48 16 = 0 := by
  rw [setWidth_timestamp_eq_append]
  exact BitVec.extractLsb'_append_eq_left

@[simp] theorem tsField_setWidth (ts : BitVec 48) : tsField (ts.setWidth 64) = ts := by
  rw [tsField, setWidth_timestamp_eq_append]
  exact BitVec.extractLsb'_append_eq_right

/-- A register value in range is its low 48 bits zero-extended. -/
theorem setWidth_tsField {x : BitVec 64} (h : x.extractLsb' 48 16 = 0) : (tsField x).setWidth 64 = x :=
  calc (tsField x).setWidth 64
    _ = x.extractLsb' 48 16 ++ x.extractLsb' 0 48 := by rw [setWidth_timestamp_eq_append, h]; rfl
    _ = x := BitVec.extractLsb'_append_extractLsb'

/-! ### PACK -/

theorem exec_pack_of_inRange {s : State} (h : s.tsw.extractLsb' 48 16 = 0) :
    exec .pack s = .next { s with v := pack (tsField s.tsw) s.ssc s.en, status := 0, detail := 0 } := by
  rcases packCmd_cases s with ⟨hne, -⟩ | ⟨-, hok⟩
  · exact absurd h hne
  · rw [exec_pack, hok, complete_ok]
    rfl

theorem exec_pack_of_outOfRange {s : State} (h : s.tsw.extractLsb' 48 16 ≠ 0) :
    exec .pack s = .next (reported s 2 5) := by
  rcases packCmd_cases s with ⟨-, herr⟩ | ⟨h0, -⟩
  · rw [exec_pack, herr, complete_error]
    rfl
  · exact absurd h0 h

/-- Settles O30: the two clauses are the two outcomes of the range check, and the value written has the three fields
side by side. -/
theorem packFillsTheValueOrReports : Obligations.PackFillsTheValueOrReports :=
  ⟨decode_encode .pack, fun s => ⟨fun h =>
    ⟨pack (tsField s.tsw) s.ssc s.en, exec_pack_of_inRange h, pack_timestamp _ _ _, pack_scope _ _ _,
      pack_entropy _ _ _⟩, exec_pack_of_outOfRange⟩⟩

/-! ### UNPACK -/

theorem exec_unpack_eq (s : State) : exec .unpack s = .next { s with
    tsw := (unpack s.v).1.setWidth 64, ssc := (unpack s.v).2.1, en := (unpack s.v).2.2, status := 0, detail := 0 } := rfl

/-- Settles O31: the timestamp written is the zero-extended field of `V`. -/
theorem unpackFillsTheFields : Obligations.UnpackFillsTheFields :=
  ⟨decode_encode .unpack, fun s => ⟨(unpack s.v).1.setWidth 64, exec_unpack_eq s, upper_setWidth_timestamp _,
    tsField_setWidth _⟩⟩

/-! ### PACK and UNPACK undo each other -/

/-- PACK that succeeds, then UNPACK: a timestamp in range comes back from its 48 bits (spec/41_packing.md R145). -/
theorem unpack_after_pack {s : State} (h : s.tsw.extractLsb' 48 16 = 0) :
    ∃ t u, exec .pack s = .next t ∧ exec .unpack t = .next u ∧ u.tsw = s.tsw ∧ u.ssc = s.ssc ∧ u.en = s.en := by
  refine ⟨_, _, exec_pack_of_inRange h, exec_unpack_eq _, ?_, pack_scope _ _ _, pack_entropy _ _ _⟩
  simp only [unpack_pack, setWidth_tsField h]

/-- UNPACK, then PACK: the timestamp that UNPACK writes is always in range, so PACK succeeds (spec/41_packing.md R145). -/
theorem pack_after_unpack (s : State) :
    ∃ t u, exec .unpack s = .next t ∧ exec .pack t = .next u ∧ u.status = 0 ∧ u.v = s.v := by
  refine ⟨_, _, exec_unpack_eq s, exec_pack_of_inRange (upper_setWidth_timestamp _), rfl, ?_⟩
  simp only [tsField_setWidth, pack_unpack]

/-- Settles O48: the function laws, and the command laws that follow from them. -/
theorem packAndUnpackAreInverse : Obligations.PackAndUnpackAreInverse :=
  ⟨unpack_pack, pack_unpack, fun _ => unpack_after_pack, pack_after_unpack⟩

end Sys2Proof.Machine
end

section
/-! Scope normalization (spec/42_scope.md R151 to R155): the two scope maps on numbers, the commands SC2ST and SC2PUB,
and the round trips of the maps. -/

namespace Sys2Proof.Machine

open Sys2Proof.Claims

/-! ### The public scope register as a number -/

/-- The range test on the upper half of `PSC` is the bound 65535 on its number (spec/42_scope.md R151). -/
theorem upper_psc_eq_zero_iff (p : BitVec 32) : p.extractLsb' 16 16 = 0 ↔ p.toNat ≤ 65535 := by
  have hp := p.isLt
  rw [← BitVec.toNat_inj, BitVec.extractLsb'_toNat, Nat.shiftRight_eq_div_pow]
  change p.toNat / 2 ^ 16 % 2 ^ 16 = 0 ↔ p.toNat ≤ 65535
  omega

theorem lower_psc_eq_ofNat (p : BitVec 32) : p.extractLsb' 0 16 = BitVec.ofNat 16 p.toNat := rfl

theorem toNat_ofNat_scope {n : Nat} (h : n ≤ 65535) : (BitVec.ofNat 16 n).toNat = n := by
  rw [BitVec.toNat_ofNat]
  omega

theorem one_le_toNat_iff_ne_zero (x : BitVec 16) : 1 ≤ x.toNat ↔ x ≠ 0 := by
  rw [Nat.one_le_iff_ne_zero, BitVec.toNat_ne]
  rfl

/-! ### Public to stored -/

theorem toStored_of_gt {p : BitVec 32} (h : 65535 < p.toNat) : toStored p = .error .scopeRange := by
  rcases toStored_cases p with ⟨-, herr⟩ | ⟨hr, -⟩ | ⟨hr, -⟩
  · exact herr
  all_goals exact absurd ((upper_psc_eq_zero_iff p).mp hr) (Nat.not_le.mpr h)

theorem toStored_zero : toStored 0 = .ok 0xFFFF := rfl

/-- A scope in range and not 0 is stored as the same number. -/
theorem toStored_of_pos {p : BitVec 32} (hpos : 0 < p.toNat) (hle : p.toNat ≤ 65535) :
    toStored p = .ok (BitVec.ofNat 16 p.toNat) := by
  rcases toStored_cases p with ⟨hr, -⟩ | ⟨-, h0, -⟩ | ⟨-, -, hok⟩
  · exact absurd ((upper_psc_eq_zero_iff p).mpr hle) hr
  · have hnum := congrArg BitVec.toNat h0
    rw [lower_psc_eq_ofNat, toNat_ofNat_scope hle] at hnum
    exact absurd hnum hpos.ne'
  · exact hok

/-- `to_stored` accepts 0..65535 and nothing else (spec/42_scope.md R155). -/
theorem toStored_ok_iff (p : BitVec 32) : (∃ x, toStored p = .ok x) ↔ p.toNat ≤ 65535 := by
  rw [← upper_psc_eq_zero_iff]
  rcases toStored_cases p with ⟨hr, e⟩ | ⟨hr, -, e⟩ | ⟨hr, -, e⟩
  · exact iff_of_false (by simp [e]) hr
  · exact iff_of_true ⟨_, e⟩ hr
  · exact iff_of_true ⟨_, e⟩ hr

/-- A stored scope, zero-extended to the public register, is stored as itself. -/
theorem toStored_setWidth {x : BitVec 16} (h : x ≠ 0) : toStored (x.setWidth 32) = .ok x := by
  have hnum : (x.setWidth 32).toNat = x.toNat := BitVec.toNat_setWidth_of_le (by decide)
  have hpos : 0 < x.toNat := (one_le_toNat_iff_ne_zero x).mpr h
  rw [toStored_of_pos (hnum ▸ hpos) (hnum ▸ Nat.le_of_lt_succ x.isLt), hnum, BitVec.ofNat_toNat, BitVec.setWidth_eq]

/-- The image of `to_stored` is 1..65535 (spec/42_scope.md R155). -/
theorem mem_image_toStored_iff (x : BitVec 16) : (∃ p, toStored p = .ok x) ↔ 1 ≤ x.toNat := by
  rw [one_le_toNat_iff_ne_zero]
  exact ⟨fun ⟨p, h⟩ => toStored_ne_zero p x h, fun h => ⟨_, toStored_setWidth h⟩⟩

/-! ### Stored to public -/

theorem toPublic_zero (cfg : Config) : toPublic cfg 0 = .error .scopeReserved := rfl

/-- `to_public` keeps every stored scope but 0, except the maximum where it is remapped (spec/42_scope.md R153). -/
theorem toPublic_eq_self {cfg : Config} {x : BitVec 16} (h : x ≠ 0)
    (hkeep : cfg.scopeReadbackRemap = false ∨ x ≠ 0xFFFF) : toPublic cfg x = .ok x := by
  rcases toPublic_cases cfg x with ⟨h0, -⟩ | ⟨-, hok⟩
  · exact absurd h0 h
  · rw [hok, if_neg]
    rw [Bool.and_eq_true, beq_iff_eq]
    rintro ⟨hon, hmax⟩
    exact hkeep.elim (fun hoff => Bool.false_ne_true (hoff.symm.trans hon)) (· hmax)

theorem toPublic_max_of_remap (u : BitVec 5) : toPublic ⟨true, u⟩ 0xFFFF = .ok 0 := rfl

/-- Without the remapping the public value 0 is never read back (spec/42_scope.md R155). -/
theorem toPublic_ne_zero {u : BitVec 5} {x q : BitVec 16} (h : toPublic ⟨false, u⟩ x = .ok q) : q ≠ 0 := by
  rcases toPublic_cases ⟨false, u⟩ x with ⟨-, herr⟩ | ⟨hx, -⟩
  · rw [herr] at h
    cases h
  · rw [toPublic_eq_self hx (.inl rfl)] at h
    cases h
    exact hx

/-! ### Storing a scope and reading it back -/

/-- A public scope that is stored as the same number, and not remapped, is read back as that number. -/
theorem toPublic_after_toStored {cfg : Config} {p : BitVec 32} (hpos : 0 < p.toNat) (hle : p.toNat ≤ 65535)
    (hkeep : cfg.scopeReadbackRemap = false ∨ p.toNat ≠ 65535) :
    ∃ x q, toStored p = .ok x ∧ toPublic cfg x = .ok q ∧ q.toNat = p.toNat := by
  have hnum := toNat_ofNat_scope hle
  have hne : BitVec.ofNat 16 p.toNat ≠ 0 := (one_le_toNat_iff_ne_zero _).mp (hnum.symm ▸ hpos)
  have hkeep' : cfg.scopeReadbackRemap = false ∨ BitVec.ofNat 16 p.toNat ≠ 0xFFFF :=
    hkeep.imp_right fun hmax e => hmax (hnum.symm.trans (congrArg BitVec.toNat e))
  exact ⟨_, _, toStored_of_pos hpos hle, toPublic_eq_self hne hkeep', hnum⟩

/-- With the remapping 0 makes the round trip through the stored maximum, and every other scope but 65535 is kept
(spec/42_scope.md R155). -/
theorem toPublic_after_toStored_of_remap (u : BitVec 5) {p : BitVec 32} (hle : p.toNat ≤ 65534) :
    ∃ x q, toStored p = .ok x ∧ toPublic ⟨true, u⟩ x = .ok q ∧ q.toNat = p.toNat := by
  rcases Nat.eq_zero_or_pos p.toNat with h0 | hpos
  · obtain rfl : p = 0 := BitVec.eq_of_toNat_eq h0
    exact ⟨_, _, toStored_zero, toPublic_max_of_remap u, rfl⟩
  · exact toPublic_after_toStored hpos (by omega) (.inr (by omega))

/-- Without the remapping storing a read-back scope gives it again (spec/42_scope.md R155). -/
theorem toStored_after_toPublic (u : BitVec 5) {x : BitVec 16} (h : 1 ≤ x.toNat) :
    ∃ q, toPublic ⟨false, u⟩ x = .ok q ∧ toStored (q.setWidth 32) = .ok x := by
  have hne := (one_le_toNat_iff_ne_zero x).mp h
  exact ⟨x, toPublic_eq_self hne (.inl rfl), toStored_setWidth hne⟩

/-- Settles O49: a scope in 1..65535 is stored as itself and 0 as 65535; read back, the stored scope is itself, except
65535 where it is remapped to 0. -/
theorem theScopeMapsRoundTrip : Obligations.TheScopeMapsRoundTrip :=
  ⟨toStored_ok_iff, mem_image_toStored_iff,
    fun _ _ hpos hle => toPublic_after_toStored hpos hle (.inl rfl),
    fun _ => ⟨0xFFFF, 0xFFFF, toStored_zero, toPublic_eq_self (by decide) (.inl rfl), rfl⟩,
    fun u _ => toStored_after_toPublic u,
    fun u _ => toPublic_after_toStored_of_remap u,
    fun u => ⟨0xFFFF, 0, toStored_of_pos (by decide) (by decide), toPublic_max_of_remap u, rfl⟩,
    fun _ _ _ => toPublic_ne_zero⟩

/-! ### SC2ST -/

theorem exec_sc2st_of_ok {s : State} {x : BitVec 16} (h : toStored s.psc = .ok x) :
    exec .sc2st s = .next { s with ssc := x, status := 0, detail := 0 } := by
  rw [exec_sc2st, sc2stCmd, h, complete_ok]
  rfl

theorem exec_sc2st_of_error {s : State} {c : Check} (h : toStored s.psc = .error c) :
    exec .sc2st s = .next (s.raise c) := by
  rw [exec_sc2st, sc2stCmd, h, complete_error]

/-- Settles O32: each clause is one answer of `to_stored`, which SC2ST commits or reports. -/
theorem sc2stStoresTheScopeOrReports : Obligations.Sc2stStoresTheScopeOrReports := by
  refine ⟨decode_encode .sc2st, fun s => ⟨fun hzero => ?_, fun hpos hle => ?_, fun hgt => ?_⟩⟩
  · exact exec_sc2st_of_ok (hzero ▸ toStored_zero)
  · exact exec_sc2st_of_ok (toStored_of_pos hpos hle)
  · exact exec_sc2st_of_error (toStored_of_gt hgt)

/-! ### SC2PUB -/

theorem complete_sc2pub_of_ok {cfg : Config} {s : State} {q : BitVec 16} (h : toPublic cfg s.ssc = .ok q) :
    complete s (sc2pubCmd cfg s) = { s with psc := q.setWidth 32, status := 0, detail := 0 } := by
  rw [sc2pubCmd, h, complete_ok]
  rfl

theorem complete_sc2pub_of_error {cfg : Config} {s : State} {c : Check} (h : toPublic cfg s.ssc = .error c) :
    complete s (sc2pubCmd cfg s) = s.raise c := by
  rw [sc2pubCmd, h, complete_error]

/-- Settles O33: each clause is one answer of `to_public`, which SC2PUB commits zero-extended or reports. -/
theorem sc2pubReadsTheScopeBackOrReports : Obligations.Sc2pubReadsTheScopeBackOrReports := by
  refine ⟨decode_encode .sc2pub, fun s => ⟨fun hzero => ?_, fun hne => ?_, fun u hmax => ?_⟩⟩
  · rw [exec_sc2pub, complete_sc2pub_of_error (hzero ▸ toPublic_zero hardware)]
    rfl
  · rw [exec_sc2pub, complete_sc2pub_of_ok (toPublic_hardware _ hne), BitVec.ofNat_toNat]
  · exact complete_sc2pub_of_ok (hmax ▸ toPublic_max_of_remap u)

end Sys2Proof.Machine
end

section
/-! The hex codec (spec/43_hex.md R160 to R163): the positions and digits of form B as the rules write them, the text
that is encoded, the answers of the decoder, and the commands HEXENC and HEXDEC. -/

namespace Sys2Proof.Machine

open Sys2Proof.Claims

/-! ### Digits and positions -/

/-- The model cuts the digit out where the rule shifts it down (spec/30_encoding.md R95). -/
theorem hexNibble_eq_digit (n : BitVec 128) (j : Nat) : hexNibble n j = digit n j := by
  apply BitVec.eq_of_getLsbD_eq
  intro i hi
  simp only [hexNibble, digit, BitVec.getLsbD_extractLsb', BitVec.getLsbD_ushiftRight, Nat.zero_add]

/-- The model's formula lists the positions of spec/30_encoding.md R97. -/
theorem digitPos_eq_hexpos : ∀ j < 32, digitPos j = hexpos j := by decide

theorem hyphenPositions_lt : ∀ p ∈ hyphenPositions, p < 36 := by decide

/-! ### The characters of the encoded text -/

theorem charAt_hexEncode_hexpos (n : BitVec 128) {j : Nat} (h : j < 32) :
    charAt (hexEncode n) (hexpos j) = hexDigit (hexNibble n j) := by
  rw [charAt_eq _ _ (hexpos_lt j h), hexEncode_hexpos n j h]

theorem charAt_hexEncode_hyphen (n : BitVec 128) {p : Nat} (h : p ∈ hyphenPositions) :
    charAt (hexEncode n) p = hyphen := by
  rw [charAt_eq _ _ (hyphenPositions_lt p h), hexEncode_hyphen n p h]

/-! ### HEXENC -/

/-- A text of 36 characters replaces the whole buffer. -/
@[simp] theorem putText_full (t x : Vector Byte 36) : putText t x = x := by
  ext i hi
  simp [putText]

theorem exec_hexenc_eq (s : State) :
    exec .hexenc s = .next { s with t := hexEncode s.v, tlen := 36, status := 0, detail := 0 } := by
  rw [exec_hexenc, hexencCmd, putText_full, complete_ok]
  rfl

/-- Settles O28: the text written is form B of `V` over the whole buffer. -/
theorem hexEncWritesTheText : Obligations.HexEncWritesTheText := by
  refine ⟨decode_encode .hexenc, fun s => ⟨hexEncode s.v, exec_hexenc_eq s, fun j hj => ?_,
    fun _ hp => charAt_hexEncode_hyphen s.v hp⟩⟩
  rw [digitPos_eq_hexpos j hj, charAt_hexEncode_hexpos s.v hj, hexNibble_eq_digit]

/-! ### When each check of the decoder fires -/

section
variable {len : Byte} {t : Vector Byte 36}

/-- GROUP fires as soon as the length is right and a hyphen is missing, whatever the digits are. -/
theorem hexDecode_of_hyphen_missing (hlen : len = 36) {p : Nat} (hp : p ∈ hyphenPositions)
    (hmissing : charAt t p ≠ hyphen) : hexDecode len t = .error .group := by
  rcases hexDecode_cases len t with ⟨hne, -⟩ | ⟨-, -, hgroup⟩ | ⟨-, hgrouped, -⟩ | ⟨-, hgrouped, -⟩
  · exact absurd hlen hne
  · exact hgroup
  all_goals exact absurd (hgrouped p hp) hmissing

/-- CHAR fires when the length and the hyphens are right and a digit has no value. -/
theorem hexDecode_of_char_invalid (hlen : len = 36) (hgrouped : ∀ p ∈ hyphenPositions, charAt t p = hyphen) {j : Nat}
    (hj : j < 32) (hinv : hexValue (charAt t (hexpos j)) = none) : hexDecode len t = .error .char := by
  rcases hexDecode_cases len t with ⟨hne, -⟩ | ⟨-, ⟨p, hp, hmissing⟩, -⟩ | ⟨-, -, -, hchar⟩ | ⟨-, -, n, -, hdigits⟩
  · exact absurd hlen hne
  · exact absurd (hgrouped p hp) hmissing
  · exact hchar
  · exact absurd ((hdigits j hj).symm.trans hinv) (Option.some_ne_none _)

/-- When no check fires the decoder answers the value whose digits are the characters' values. -/
theorem hexDecode_of_valid (hlen : len = 36) (hgrouped : ∀ p ∈ hyphenPositions, charAt t p = hyphen)
    (hvalid : ∀ j < 32, hexValue (charAt t (hexpos j)) ≠ none) :
    ∃ n, hexDecode len t = .ok n ∧ ∀ j < 32, hexValue (charAt t (hexpos j)) = some (hexNibble n j) := by
  rcases hexDecode_cases len t with ⟨hne, -⟩ | ⟨-, ⟨p, hp, hmissing⟩, -⟩ | ⟨-, -, ⟨j, hj, hinv⟩, -⟩ | ⟨-, -, hok⟩
  · exact absurd hlen hne
  · exact absurd (hgrouped p hp) hmissing
  · exact absurd hinv (hvalid j hj)
  · exact hok

end

/-- Decoding the encoded text gives the value back: its characters have the value's digits as their values, and a value
is determined by its digits (spec/43_hex.md R164). -/
@[simp] theorem hexDecode_hexEncode (n : BitVec 128) : hexDecode 36 (hexEncode n) = .ok n := by
  have hvalue : ∀ j < 32, hexValue (charAt (hexEncode n) (hexpos j)) = some (hexNibble n j) := fun j hj => by
    rw [charAt_hexEncode_hexpos n hj, hexValue_hexDigit]
  have hvalid : ∀ j < 32, hexValue (charAt (hexEncode n) (hexpos j)) ≠ none := fun j hj => by
    rw [hvalue j hj]
    exact Option.some_ne_none _
  obtain ⟨m, hok, hdigits⟩ := hexDecode_of_valid rfl (fun _ => charAt_hexEncode_hyphen n) hvalid
  have hmn : m = n := eq_of_hexNibble_eq m n fun j hj => Option.some.inj ((hdigits j hj).symm.trans (hvalue j hj))
  rw [hok, hmn]

/-! ### HEXDEC -/

theorem exec_hexdec_of_error {s : State} {c : Check} (h : hexDecode s.tlen s.t = .error c) :
    exec .hexdec s = .next (s.raise c) := by
  rw [exec_hexdec, hexdecCmd, h, complete_error]

theorem exec_hexdec_of_ok {s : State} {n : BitVec 128} (h : hexDecode s.tlen s.t = .ok n) :
    exec .hexdec s = .next { s with v := n, status := 0, detail := 0 } := by
  rw [exec_hexdec, hexdecCmd, h, complete_ok]
  rfl

/-- Settles O29: each clause is one answer of the decoder, which HEXDEC reports or commits; the encoded text of a value
reaches it. -/
theorem hexDecLoadsTheValueOrReports : Obligations.HexDecLoadsTheValueOrReports := by
  refine ⟨decode_encode .hexdec, fun s => ⟨fun hlen => ?len, ?group, ?char, ?value, fun n => ?reach⟩⟩
  case len => exact exec_hexdec_of_error (hexDecode_of_len_ne hlen s.t)
  case group =>
    rintro hlen ⟨p, hp, hmissing⟩
    exact exec_hexdec_of_error (hexDecode_of_hyphen_missing hlen hp hmissing)
  case char =>
    rintro hlen hgrouped ⟨j, hj, hinv⟩
    rw [digitPos_eq_hexpos j hj] at hinv
    exact exec_hexdec_of_error (hexDecode_of_char_invalid hlen hgrouped hj hinv)
  case value =>
    intro hlen hgrouped hvalid
    obtain ⟨n, hok, hdigits⟩ :=
      hexDecode_of_valid hlen hgrouped fun j hj => digitPos_eq_hexpos j hj ▸ hvalid j hj
    refine ⟨n, ⟨hlen, hgrouped, fun j hj => ?_⟩, exec_hexdec_of_ok hok⟩
    rw [digitPos_eq_hexpos j hj, ← hexNibble_eq_digit]
    exact hdigits j hj
  case reach => exact ⟨hexEncode n, exec_hexdec_of_ok (hexDecode_hexEncode n)⟩

end Sys2Proof.Machine
end

section
/-! The identifier paths and the comparison (spec/44_identifier.md R176 to R180): MAKE, the common end of the two parse
commands, PARSEB32, PARSEHEX, CMP and NOP. -/

namespace Sys2Proof.Machine

open Sys2Proof.Claims

/-! ### The stored scope as the claims write it -/

theorem toStored_of_inRange {p : BitVec 32} (h : p.extractLsb' 16 16 = 0) : toStored p = .ok (storedScope p) := by
  rcases toStored_cases p with ⟨hne, -⟩ | ⟨-, hzero, hok⟩ | ⟨-, hpos, hok⟩
  · exact absurd h hne
  · rw [hok, storedScope, if_pos hzero]
  · rw [hok, storedScope, if_neg hpos]

theorem storedScope_ne_zero {p : BitVec 32} (h : p.extractLsb' 16 16 = 0) : storedScope p ≠ 0 :=
  toStored_ne_zero p _ (toStored_of_inRange h)

/-! ### MAKE, under any parameter values -/

/-- The registers after a successful MAKE with stored scope `x` and read-back `p` (spec/44_identifier.md R176). -/
def made (s : State) (x p : BitVec 16) : State :=
  { s with v := pack (tsField s.tsw) x s.en, ssc := x, psc := p.setWidth 32, status := 0, detail := 0 }

section
variable {cfg : Config} {s : State}

theorem complete_make_of_ts_outOfRange (hts : s.tsw.extractLsb' 48 16 ≠ 0) :
    complete s (makeCmd cfg s) = s.raise .tsRange := by
  rcases makeCmd_cases cfg s with ⟨-, herr⟩ | ⟨h0, -⟩ | ⟨h0, -⟩
  · rw [herr, complete_error]
  all_goals exact absurd h0 hts

theorem complete_make_of_psc_outOfRange (hts : s.tsw.extractLsb' 48 16 = 0) (hpsc : s.psc.extractLsb' 16 16 ≠ 0) :
    complete s (makeCmd cfg s) = s.raise .scopeRange := by
  rcases makeCmd_cases cfg s with ⟨hne, -⟩ | ⟨-, -, herr⟩ | ⟨-, x, p, hx, -⟩
  · exact absurd hts hne
  · rw [herr, complete_error]
  · have hle : s.psc.toNat ≤ 65535 := (toStored_ok_iff s.psc).mp ⟨x, hx⟩
    exact absurd ((upper_psc_eq_zero_iff s.psc).mpr hle) hpsc

theorem complete_make_of_ok (hts : s.tsw.extractLsb' 48 16 = 0) {x p : BitVec 16} (hx : toStored s.psc = .ok x)
    (hp : toPublic cfg x = .ok p) : complete s (makeCmd cfg s) = made s x p := by
  rcases makeCmd_cases cfg s with ⟨hne, -⟩ | ⟨-, herr, -⟩ | ⟨-, x', p', hx', -, hp', hok⟩
  · exact absurd hts hne
  · rw [hx] at herr
    cases herr
  · obtain rfl : x = x' := Except.ok.inj (hx.symm.trans hx')
    obtain rfl : p = p' := Except.ok.inj (hp.symm.trans hp')
    rw [hok, complete_ok]
    rfl

/-- After MAKE the registers hold one Identifier (spec/10_state.md R38). -/
theorem made_isIdentifier (hts : s.tsw.extractLsb' 48 16 = 0) {x p : BitVec 16} (hx : x ≠ 0)
    (hp : toPublic cfg x = .ok p) : (made s x p).isIdentifier cfg := ⟨rfl, hts, hx, p, hp, rfl⟩

/-- MAKE on its own result: the only source register it overwrote is `PSC`, so all turns on the read-back being stored as
the same scope again (spec/44_identifier.md R176). -/
theorem complete_make_made (hts : s.tsw.extractLsb' 48 16 = 0) {x p : BitVec 16}
    (hagain : toStored (p.setWidth 32) = .ok x) (hp : toPublic cfg x = .ok p) :
    complete (made s x p) (makeCmd cfg (made s x p)) = made s x p :=
  complete_make_of_ok (s := made s x p) hts hagain hp

end

/-- Settles O34: the clauses are the two failing checks and the success; on this hardware the read-back is the stored
scope, which is stored as itself, and with the remapping the read-back 0 is stored as 65535 again. -/
theorem makeBuildsTheIdentifierOrReports : Obligations.MakeBuildsTheIdentifierOrReports := by
  refine ⟨decode_encode .make, fun s => ⟨fun hts => ?tsRange, fun hts hpsc => ?scopeRange, fun hts hpsc => ?success,
    fun u hts hmax => ?remap⟩⟩
  case tsRange =>
    rw [exec_make, complete_make_of_ts_outOfRange hts]
    rfl
  case scopeRange =>
    rw [exec_make, complete_make_of_psc_outOfRange hts hpsc]
    rfl
  case success =>
    have hne : storedScope s.psc ≠ 0 := storedScope_ne_zero hpsc
    have hpub : toPublic hardware (storedScope s.psc) = .ok (storedScope s.psc) := toPublic_hardware _ hne
    refine ⟨_, made s (storedScope s.psc) (storedScope s.psc), rfl, pack_timestamp _ _ _, pack_scope _ _ _,
      pack_entropy _ _ _, ?_, made_isIdentifier hts hne hpub, ?_⟩
    · rw [exec_make, complete_make_of_ok hts (toStored_of_inRange hpsc) hpub]
    · rw [exec_make, complete_make_made hts (toStored_setWidth hne) hpub]
  case remap =>
    have hstored : toStored s.psc = .ok 0xFFFF := hmax ▸ toStored_of_pos (by decide) (by decide)
    have hpub := toPublic_max_of_remap u
    exact ⟨made s 0xFFFF 0, made s 0xFFFF 0, complete_make_of_ok hts hstored hpub, rfl, rfl,
      complete_make_made hts toStored_zero hpub, rfl, rfl, rfl⟩

/-! ### The common end of the parse commands -/

theorem complete_parseValue_of_scope_zero {n : BitVec 128} (h : n.extractLsb' 64 16 = 0) (cfg : Config) (s : State) :
    complete s (parseValue cfg n s) = reported s 3 7 := by
  rcases parseValue_cases cfg n s with ⟨-, herr⟩ | ⟨hne, -⟩
  · rw [herr, complete_error]
    rfl
  · exact absurd h hne

theorem complete_parseValue_of_scope_ne_zero {n : BitVec 128} (h : n.extractLsb' 64 16 ≠ 0) (s : State) :
    complete s (parseValue hardware n s) = parsed s n := by
  rcases parseValue_cases hardware n s with ⟨h0, -⟩ | ⟨-, p, hp, hok⟩
  · exact absurd h0 h
  · obtain rfl : n.extractLsb' 64 16 = p := Except.ok.inj ((toPublic_hardware _ h).symm.trans hp)
    rw [hok, complete_ok]
    rfl

/-! ### PARSEB32 -/

theorem exec_parseb32_of_error {s : State} {c : Check} (h : b32Decode hardware s.tlen s.t = .error c) :
    exec .parseb32 s = .next (s.raise c) := by
  rw [exec_parseb32, parseb32Cmd, h, complete_error]

theorem exec_parseb32_of_ok {s : State} {n : BitVec 128} (h : b32Decode hardware s.tlen s.t = .ok n) :
    exec .parseb32 s = .next (complete s (parseValue hardware n s)) := by
  rw [exec_parseb32, parseb32Cmd, h]

/-- Settles O35: each clause is one answer of the decoder; the decoded value goes through the common end. -/
theorem parseB32LoadsTheIdentifierOrReports : Obligations.ParseB32LoadsTheIdentifierOrReports := by
  refine ⟨decode_encode .parseb32, fun s => ⟨fun hlen => ?len, ?char, ?overflow, ?value⟩⟩
  case len => exact exec_parseb32_of_error (b32Decode_of_len_ne hlen hardware s.t)
  case char =>
    rintro hlen ⟨k, hk, hinv⟩
    exact exec_parseb32_of_error (b32Decode_of_char_invalid (cfg := hardware) hlen hk hinv)
  case overflow =>
    rintro hlen hvalid ⟨g, hfirst, hg⟩
    exact exec_parseb32_of_error (b32Decode_of_overflow (cfg := hardware) hlen hvalid hfirst hg)
  case value =>
    rintro hlen hvalid ⟨g, hfirst, hg⟩
    obtain ⟨n, hok, hgroups⟩ := b32Decode_of_valid (cfg := hardware) hlen hvalid hfirst hg
    refine ⟨n, ⟨hlen, fun k hk => b32Group_eq_group n k ▸ hgroups k hk⟩, fun hzero => ?_, fun hne => ?_⟩
    · rw [exec_parseb32_of_ok hok, complete_parseValue_of_scope_zero hzero]
    · rw [exec_parseb32_of_ok hok, complete_parseValue_of_scope_ne_zero hne]

/-! ### PARSEHEX -/

theorem exec_parsehex_of_error {s : State} {c : Check} (h : hexDecode s.tlen s.t = .error c) :
    exec .parsehex s = .next (s.raise c) := by
  rw [exec_parsehex, parsehexCmd, h, complete_error]

theorem exec_parsehex_of_ok {s : State} {n : BitVec 128} (h : hexDecode s.tlen s.t = .ok n) :
    exec .parsehex s = .next (complete s (parseValue hardware n s)) := by
  rw [exec_parsehex, parsehexCmd, h]

/-- Settles O36: each clause is one answer of the decoder; the decoded value goes through the common end. -/
theorem parseHexLoadsTheIdentifierOrReports : Obligations.ParseHexLoadsTheIdentifierOrReports := by
  refine ⟨decode_encode .parsehex, fun s => ⟨fun hlen => ?len, ?group, ?char, ?value⟩⟩
  case len => exact exec_parsehex_of_error (hexDecode_of_len_ne hlen s.t)
  case group =>
    rintro hlen ⟨p, hp, hmissing⟩
    exact exec_parsehex_of_error (hexDecode_of_hyphen_missing hlen hp hmissing)
  case char =>
    rintro hlen hgrouped ⟨j, hj, hinv⟩
    rw [digitPos_eq_hexpos j hj] at hinv
    exact exec_parsehex_of_error (hexDecode_of_char_invalid hlen hgrouped hj hinv)
  case value =>
    intro hlen hgrouped hvalid
    obtain ⟨n, hok, hdigits⟩ :=
      hexDecode_of_valid hlen hgrouped fun j hj => digitPos_eq_hexpos j hj ▸ hvalid j hj
    refine ⟨n, ⟨hlen, hgrouped, fun j hj => ?_⟩, fun hzero => ?_, fun hne => ?_⟩
    · rw [digitPos_eq_hexpos j hj, ← hexNibble_eq_digit]
      exact hdigits j hj
    · rw [exec_parsehex_of_ok hok, complete_parseValue_of_scope_zero hzero]
    · rw [exec_parsehex_of_ok hok, complete_parseValue_of_scope_ne_zero hne]

/-! ### CMP -/

@[simp] theorem orderCode_self (a : BitVec 128) : orderCode a a = 0 := if_pos rfl

theorem orderCode_of_lt {a b : BitVec 128} (h : a.toNat < b.toNat) : orderCode a b = 1 := by
  have hne : a ≠ b := fun e => h.ne (congrArg BitVec.toNat e)
  rw [orderCode, if_neg hne, if_pos (BitVec.lt_def.mpr h)]

theorem orderCode_of_gt {a b : BitVec 128} (h : b.toNat < a.toNat) : orderCode a b = 2 := by
  have hne : a ≠ b := fun e => h.ne' (congrArg BitVec.toNat e)
  have hlt : ¬a < b := fun e => h.asymm (BitVec.lt_def.mp e)
  rw [orderCode, if_neg hne, if_neg hlt]

theorem exec_cmp_eq (s : State) :
    exec .cmp s = .next { s with cmpr := orderCode s.v s.w, status := 0, detail := 0 } := by
  rw [exec_cmp, cmpCmd, complete_ok]
  rfl

/-- Settles O37: `CMPR` is the code of the order of the numbers, and that order is the order of the bytes. -/
theorem cmpWritesTheUnsignedOrder : Obligations.CmpWritesTheUnsignedOrder := by
  refine ⟨decode_encode .cmp, fun s => ⟨fun heq => ?_, fun hlt => ?_, fun hgt => ?_, toNat_lt_iff_bytesBefore _ _,
    toNat_lt_iff_bytesBefore _ _⟩⟩
  · rw [exec_cmp_eq, heq, orderCode_self]
  · rw [exec_cmp_eq, orderCode_of_lt hlt]
  · rw [exec_cmp_eq, orderCode_of_gt hgt]

/-! ### NOP -/

theorem exec_nop_eq (s : State) : exec .nop s = .next { s with status := 0, detail := 0 } := by
  rw [exec_nop, nopCmd, complete_ok]
  rfl

/-- Settles O25: NOP commits the registers as they are, with the report of success. -/
theorem nopClearsTheReport : Obligations.NopClearsTheReport := ⟨decode_encode .nop, exec_nop_eq⟩

end Sys2Proof.Machine
end

section
/-! The illegal command codes (spec/60_exceptions.md R208). -/

namespace Sys2Proof.Machine

open Sys2Proof.Claims

/-- The report of the raise of IllegalCommand/ILLEGAL_CMD (spec/60_exceptions.md R201, R202). -/
theorem raise_illegalCmd_eq_reported (s : State) : s.raise .illegalCmd = reported s 5 8 := rfl

/-- A write to the command port is the command of the byte written (spec/20_memory.md R52). -/
theorem memWrite_cmdAddr (c : Byte) (s : State) : memWrite cmdAddr c s = command c s := by
  rcases memWrite_cases cmdAddr c s with ⟨-, h⟩ | ⟨hne, -⟩
  · exact h
  · exact absurd rfl hne

/-- A byte that decodes to no command raises IllegalCommand (spec/20_memory.md R52). -/
theorem command_of_decode_error {c : Byte} {e : DecodeError} (h : decode c = .error e) (s : State) :
    command c s = .next (s.raise .illegalCmd) := by
  rcases command_cases c s with ⟨i, hok, -⟩ | ⟨-, -, hraise⟩
  · rw [h] at hok
    cases hok
  · exact hraise

/-- Settles O11: the decoder rejects the code, and the command of a rejected byte is the raise of ILLEGAL_CMD, which
writes the two report registers. -/
theorem illegalCodesReportIllegalCommand : Obligations.IllegalCodesReportIllegalCommand := by
  intro c s hc
  have hdecode := decode_of_illegal c hc
  refine ⟨hdecode, ?_⟩
  calc memWrite cmdAddr c s
    _ = command c s := memWrite_cmdAddr c s
    _ = .next (s.raise .illegalCmd) := command_of_decode_error hdecode s
    _ = .next (reported s 5 8) := by rw [raise_illegalCmd_eq_reported]

end Sys2Proof.Machine
end

section
/-! The laws of the two text codecs (spec/40_base32.md R124, R126; spec/43_hex.md R164): which texts decode to a value,
the round trips, the overflow guard, and what the decoder of form A looks at. -/

namespace Sys2Proof.Machine

open Sys2Proof.Claims

/-! ### The texts that decode to a value -/

/-- A text decodes to `n` exactly when its length is 26 and its characters have the groups of `n` as their values. -/
theorem b32Decode_ok_iff {cfg : Config} {len : Byte} {t : Vector Byte 36} {n : BitVec 128} :
    b32Decode cfg len t = .ok n ↔
      len = 26 ∧ ∀ k < 26, b32Value cfg.uAliasValue (charAt t k) = some (b32Group n k) := by
  constructor
  · intro h
    rcases b32Decode_cases cfg len t with ⟨-, e⟩ | ⟨-, -, e⟩ | ⟨-, -, -, e⟩ | ⟨hlen, m, e, hgroups⟩
    case inr.inr.inr =>
      obtain rfl : m = n := Except.ok.inj (e.symm.trans h)
      exact ⟨hlen, hgroups⟩
    all_goals exact nomatch e.symm.trans h
  · rintro ⟨hlen, hvalue⟩
    have hvalid : ∀ k < 26, b32Value cfg.uAliasValue (charAt t k) ≠ none := fun k hk =>
      hvalue k hk ▸ Option.some_ne_none _
    obtain ⟨m, hok, hgroups⟩ := b32Decode_of_valid hlen hvalid (hvalue 0 (by decide)) (b32Group_zero_le n)
    have hmn : m = n := eq_of_b32Group_eq m n fun k hk => Option.some.inj ((hgroups k hk).symm.trans (hvalue k hk))
    rw [hok, hmn]

/-- A text that decodes to `n` has the four hyphens, and the digits of `n` as its other characters' values. -/
theorem hexDecode_eq_ok {len : Byte} {t : Vector Byte 36} {n : BitVec 128} (h : hexDecode len t = .ok n) :
    (∀ p ∈ hyphenPositions, charAt t p = hyphen) ∧
      ∀ j < 32, hexValue (charAt t (hexpos j)) = some (hexNibble n j) := by
  rcases hexDecode_cases len t with ⟨-, e⟩ | ⟨-, -, e⟩ | ⟨-, -, -, e⟩ | ⟨-, hgrouped, m, e, hdigits⟩
  case inr.inr.inr =>
    obtain rfl : m = n := Except.ok.inj (e.symm.trans h)
    exact ⟨hgrouped, hdigits⟩
  all_goals exact nomatch e.symm.trans h

/-! ### Decode of encode, encode of decode -/

/-- Settles O44: the characters written have the value's groups as their values, and the text that has them decodes to
the value. -/
theorem base32DecodesWhatItEncodes : Obligations.Base32DecodesWhatItEncodes := by
  refine fun cfg n x => b32Decode_ok_iff.mpr ⟨rfl, fun k hk => ?_⟩
  rw [charAt_putText_lt _ _ k hk (by omega), b32Encode_getElem, b32Value_alphabet]

/-- Settles O45: a text that decodes has the groups of the value as its characters' values. -/
theorem base32EncodesTheCanonicalForm : Obligations.Base32EncodesTheCanonicalForm := by
  intro cfg x n h k hk
  obtain ⟨-, hvalue⟩ := b32Decode_ok_iff.mp h
  exact ⟨b32Group n k, hvalue k hk, b32Encode_getElem n k hk⟩

/-- The output digit of a code's value is the code in lower case (spec/43_hex.md R164). -/
theorem hexDigit_of_hexValue {c : Byte} {d : BitVec 4} (h : hexValue c = some d) : hexDigit d = hexLower c := by
  have key : ∀ c : Byte, ∀ d ∈ hexValue c, hexDigit d = hexLower c := by decide
  exact key c d h

/-- The hyphen is no letter. -/
theorem hexLower_hyphen : hexLower hyphen = hyphen := rfl

/-- Re-encoding a text that decodes gives it in lower case: every position is a hyphen's or a digit's. -/
theorem charAt_hexEncode_of_hexDecode {len : Byte} {x : Vector Byte 36} {n : BitVec 128} (h : hexDecode len x = .ok n)
    {k : Nat} (hk : k < 36) : charAt (hexEncode n) k = hexLower (charAt x k) := by
  obtain ⟨hgrouped, hdigits⟩ := hexDecode_eq_ok h
  rcases hexPosition_cases k hk with hp | ⟨j, hj, rfl⟩
  · rw [charAt_hexEncode_hyphen n hp, hgrouped k hp, hexLower_hyphen]
  · rw [charAt_hexEncode_hexpos n hj, hexDigit_of_hexValue (hdigits j hj)]

/-- Settles O47: decode after encode is `hexDecode_hexEncode`, encode after decode goes position by position. -/
theorem hexRoundTrips : Obligations.HexRoundTrips :=
  ⟨hexDecode_hexEncode, fun _ _ h _ hk => charAt_hexEncode_of_hexDecode h hk⟩

/-! ### The commands -/

theorem exec_b32enc_eq (s : State) : exec .b32enc s =
    .next { s with t := putText s.t (b32Encode s.v), tlen := 26, status := 0, detail := 0 } := rfl

/-- Settles O46: after the encoder the buffer holds the text of `V`, so the decoder writes the value that is there. -/
theorem encodeThenDecodeLeavesTheValue : Obligations.EncodeThenDecodeLeavesTheValue := fun s =>
  ⟨⟨_, exec_b32enc_eq s, exec_b32dec_of_ok (base32DecodesWhatItEncodes hardware s.v s.t), rfl, rfl⟩,
    ⟨_, exec_hexenc_eq s, exec_hexdec_of_ok (hexDecode_hexEncode s.v), rfl, rfl⟩⟩

/-! ### The overflow guard -/

/-- The guard's bound in bits: a value above 7 has one of its two top bits set. -/
theorem seven_lt_iff_top_bits : ∀ g : BitVec 5, 7 < g ↔ g.extractLsb' 3 2 ≠ 0 := by decide

theorem alphabet_of_alphabetIndex {c : Byte} {g : BitVec 5} (h : alphabetIndex c = some g) : alphabet g = c := by
  obtain ⟨i, hi, rfl⟩ := Option.map_eq_some_iff.mp h
  simpa using List.find?_some hi

/-- A code with a value folds to the alphabet's character for it or to a confusable letter (spec/30_encoding.md R91). -/
theorem b32Value_eq_some {u g : BitVec 5} {c : Byte} (h : b32Value u c = some g) :
    foldCase c = alphabet g ∨ ((foldCase c = ascii 'I' ∨ foldCase c = ascii 'L') ∧ g = 1) ∨
      (foldCase c = ascii 'O' ∧ g = 0) ∨ (foldCase c = ascii 'U' ∧ g = u) := by
  unfold b32Value at h
  dsimp only at h
  split_ifs at h with hIL hO hU
  · exact .inr (.inl ⟨hIL, (Option.some.inj h).symm⟩)
  · exact .inr (.inr (.inl ⟨hO, (Option.some.inj h).symm⟩))
  · exact .inr (.inr (.inr ⟨hU, (Option.some.inj h).symm⟩))
  · exact .inl (alphabet_of_alphabetIndex h).symm

/-- The guard's list has its letters in both cases. -/
theorem foldCase_mem_guardPasses_iff : ∀ c : Byte,
    (foldCase c).toNat ∈ guardPasses.map Char.toNat ↔ c.toNat ∈ guardPasses.map Char.toNat := by decide

theorem alphabet_mem_guardPasses_iff : ∀ g : BitVec 5, (alphabet g).toNat ∈ guardPasses.map Char.toNat ↔ g ≤ 7 := by
  decide

/-- On this hardware the codes with a value of at most 7 are the fourteen of spec/40_base32.md R124. -/
theorem mem_guardPasses_iff {c : Byte} {g : BitVec 5} (h : b32Value 22 c = some g) :
    c.toNat ∈ guardPasses.map Char.toNat ↔ g ≤ 7 := by
  rw [← foldCase_mem_guardPasses_iff]
  rcases b32Value_eq_some h with e | ⟨e | e, rfl⟩ | ⟨e, rfl⟩ | ⟨e, rfl⟩
  · rw [e, alphabet_mem_guardPasses_iff]
  all_goals rw [e]; decide

/-- Of the texts of 26 valid characters the decoder refuses those with a first value above 7 and decodes the others. -/
theorem b32Decode_overflow_or_ok {cfg : Config} {x : Vector Byte 36}
    (hvalid : ∀ k < 26, b32Value cfg.uAliasValue (charAt x k) ≠ none) {g : BitVec 5}
    (hfirst : b32Value cfg.uAliasValue (charAt x 0) = some g) :
    (7 < g ∧ b32Decode cfg 26 x = .error .overflow) ∨ (g ≤ 7 ∧ ∃ n, b32Decode cfg 26 x = .ok n) := by
  by_cases hg : 7 < g
  · exact .inl ⟨hg, b32Decode_of_overflow rfl hvalid hfirst hg⟩
  · have hle := BitVec.not_lt.mp hg
    obtain ⟨n, hok, -⟩ := b32Decode_of_valid rfl hvalid hfirst hle
    exact .inr ⟨hle, n, hok⟩

/-- Settles O24: every clause turns on whether the first value exceeds 7. -/
theorem theOverflowGuardAcceptsValuesUpToSeven : Obligations.TheOverflowGuardAcceptsValuesUpToSeven := by
  intro x hvalid
  obtain ⟨g, hfirst⟩ := Option.ne_none_iff_exists'.mp (hvalid 0 (by decide))
  have hover : b32Decode hardware 26 x = .error .overflow ↔ 7 < g := by
    rcases b32Decode_overflow_or_ok (cfg := hardware) hvalid hfirst with ⟨hg, e⟩ | ⟨hg, n, e⟩
    · exact iff_of_true e hg
    · exact iff_of_false (by rw [e]; exact nofun) (BitVec.not_lt.mpr hg)
  have hok : (∃ n, b32Decode hardware 26 x = .ok n) ↔ g ≤ 7 := by
    rcases b32Decode_overflow_or_ok (cfg := hardware) hvalid hfirst with ⟨hg, e⟩ | ⟨hg, n, e⟩
    · exact iff_of_false (by rw [e]; exact nofun) (BitVec.not_le.mpr hg)
    · exact iff_of_true ⟨n, e⟩ hg
  rw [hover, hok, mem_guardPasses_iff hfirst]
  simp only [hfirst, Option.some.injEq, exists_eq_left', ← seven_lt_iff_top_bits, BitVec.not_le, and_self]

/-! ### What the decoder of form A looks at -/

/-- The answer depends on the length and on the values of the 26 characters only. -/
theorem b32Decode_congr {cfg cfg' : Config} {x x' : Vector Byte 36} (len : Byte)
    (h : len = 26 → ∀ k < 26, b32Value cfg.uAliasValue (charAt x k) = b32Value cfg'.uAliasValue (charAt x' k)) :
    b32Decode cfg len x = b32Decode cfg' len x' := by
  rcases b32Decode_cases cfg len x with ⟨hne, e⟩ | ⟨hlen, ⟨k, hk, hinv⟩, e⟩ | ⟨hlen, hvalid, ⟨g, hfirst, hg⟩, e⟩ |
    ⟨hlen, n, e, hgroups⟩
  · rw [e, b32Decode_of_len_ne hne]
  · rw [e, b32Decode_of_char_invalid hlen hk (h hlen k hk ▸ hinv)]
  · rw [e, b32Decode_of_overflow hlen (fun k hk => h hlen k hk ▸ hvalid k hk) (h hlen 0 (by decide) ▸ hfirst) hg]
  · rw [e, b32Decode_ok_iff.mpr ⟨hlen, fun k hk => h hlen k hk ▸ hgroups k hk⟩]

/-- The only codes that fold to the letter U. -/
theorem foldCase_ne_U {c : Byte} (hupper : c ≠ 0x55) (hlower : c ≠ 0x75) : foldCase c ≠ ascii 'U' := by
  have hU : ascii 'U' = 0x55 := rfl
  unfold foldCase
  split
  · bv_omega
  · exact hU ▸ hupper

/-- A code other than `U` and `u` has one value whatever `U_ALIAS_VALUE` is (spec/92_eei_decisions.md D2). -/
theorem b32Value_congr_uAlias {c : Byte} (hupper : c ≠ 0x55) (hlower : c ≠ 0x75) (u u' : BitVec 5) :
    b32Value u c = b32Value u' c := by
  simp only [b32Value, foldCase_ne_U hupper hlower, if_false]

/-- Settles O57: without `U` and `u` the 26 characters have the same values under both parameters. -/
theorem theAliasParameterTouchesOnlyU : Obligations.TheAliasParameterTouchesOnlyU := fun _ u u' len _ h =>
  b32Decode_congr len fun _ k hk => b32Value_congr_uAlias (h k hk).1 (h k hk).2 u u'

end Sys2Proof.Machine
end

section
/-! The ten timestamp characters of form A (spec/30_encoding.md R94). -/

namespace Sys2Proof.Machine

/-- The ten 5-bit groups of a timestamp with two zero bits before it. -/
def timestampGroup (ts : BitVec 48) (k : Nat) : BitVec 5 := (0b00#2 ++ ts).extractLsb' (5 * (9 - k)) 5

/-- The first ten groups of a packed value are the timestamp's: 50 bits that stand above scope and entropy. -/
theorem b32Group_pack {k : Nat} (hk : k < 10) (ts : BitVec 48) (sc : BitVec 16) (en : BitVec 64) :
    b32Group (pack ts sc en) k = timestampGroup ts k := by
  apply BitVec.eq_of_getLsbD_eq
  intro j hj
  have hlow : ¬5 * (25 - k) + j < 64 := by omega
  have hmid : ¬5 * (25 - k) + j - 64 < 16 := by omega
  have hpos : 5 * (25 - k) + j - 64 - 16 = 5 * (9 - k) + j := by omega
  by_cases hts : 5 * (9 - k) + j < 48
  · have hval : 5 * (25 - k) + j < 128 := by omega
    simp only [b32Group, timestampGroup, pack, BitVec.getLsbD_extractLsb', BitVec.getLsbD_append, hlow, hmid, hpos, hts,
      hval, if_true, if_false]
  · have hval : ¬5 * (25 - k) + j < 128 := by omega
    have hzero : 5 * (25 - k) + j - 128 = 5 * (9 - k) + j - 48 := by omega
    simp only [b32Group, timestampGroup, pack, BitVec.getLsbD_extractLsb', BitVec.getLsbD_append, hts, hval, hzero,
      if_false]

/-- Timestamps with the same ten groups are the same. -/
theorem eq_of_timestampGroup_eq {ts ts' : BitVec 48} (h : ∀ k < 10, timestampGroup ts k = timestampGroup ts' k) :
    ts = ts' := by
  have groups : ∀ x : BitVec 48, concatDigits 5 (timestampGroup x) 10 = 0b00#2 ++ x := fun x =>
    concatDigits_extract (w := 5) (by decide) 10 (0b00#2 ++ x)
  have e := concatDigits_congr _ _ 10 h
  rw [groups, groups] at e
  exact (BitVec.append_right_inj _).mp e

/-- Settles O52: the first ten characters are the alphabet's for the timestamp's groups, which determine it. -/
theorem theFirstTenCharactersAreTheTimestamp : Obligations.TheFirstTenCharactersAreTheTimestamp := by
  intro ts ts' sc sc' en en'
  refine ⟨fun k hk => ?_, fun hne => ?_⟩
  · rw [b32Encode_getElem, b32Encode_getElem, b32Group_pack hk, b32Group_pack hk]
  · by_contra hsame
    refine hne (eq_of_timestampGroup_eq fun k hk => ?_)
    have hchar := not_not.mp fun h => hsame ⟨k, hk, h⟩
    rwa [b32Encode_getElem, b32Encode_getElem, b32Group_pack hk, b32Group_pack hk, alphabet_inj] at hchar

end Sys2Proof.Machine
end

section
/-! What holds of every command: how it can end, its reports (spec/60_exceptions.md R200, R203, R207), the registers it
writes and the registers it reads (spec/10_state.md R29), and each command on the reset contents
(spec/70_reset_and_hazards.md R242). -/

namespace Sys2Proof.Machine

open Sys2Proof.Claims

/-! ### The two ends of a command -/

/-- A command commits its pseudocode with a report of success, or changes the report alone. -/
theorem exec_cases {i : Instr} {s t : State} (h : exec i s = .next t) :
    (∃ u, pseudocode hardware i s = .ok u ∧ t = u.succeed) ∨
      (∃ c, pseudocode hardware i s = .error c ∧ t = s.raise c) := by
  rw [exec_eq] at h
  cases h
  exact complete_cases s (pseudocode hardware i s)

/-- No check is coded as success. -/
theorem check_code_ne_zero (c : Check) : c.code ≠ 0 := by cases c <;> decide

/-- Settles O38: a commit reports 0/0, a raise writes the two report registers and no check or kind is coded 0. -/
theorem aFailingCommandWritesOnlyItsReport : Obligations.AFailingCommandWritesOnlyItsReport := by
  intro i s t h
  rcases exec_cases h with ⟨u, -, rfl⟩ | ⟨c, -, rfl⟩
  · exact .inl ⟨rfl, rfl⟩
  · exact .inr ⟨kind_code_ne_zero c.kind, check_code_ne_zero c, rfl⟩

/-! ### The checks a command can fail -/

theorem b32Decode_error_mem {cfg : Config} {len : Byte} {t : Vector Byte 36} {c : Check}
    (h : b32Decode cfg len t = .error c) : c ∈ [Check.len, .char, .overflow] := by
  rcases b32Decode_cases cfg len t with ⟨-, e⟩ | ⟨-, -, e⟩ | ⟨-, -, -, e⟩ | ⟨-, n, e, -⟩ <;> cases e.symm.trans h <;>
    decide

theorem hexDecode_error_mem {len : Byte} {t : Vector Byte 36} {c : Check} (h : hexDecode len t = .error c) :
    c ∈ [Check.len, .group, .char] := by
  rcases hexDecode_cases len t with ⟨-, e⟩ | ⟨-, -, e⟩ | ⟨-, -, -, e⟩ | ⟨-, -, n, e, -⟩ <;> cases e.symm.trans h <;>
    decide

theorem toStored_error {p : BitVec 32} {c : Check} (h : toStored p = .error c) : c = .scopeRange := by
  rcases toStored_cases p with ⟨-, e⟩ | ⟨-, -, e⟩ | ⟨-, -, e⟩ <;> cases e.symm.trans h
  rfl

theorem toPublic_error {cfg : Config} {x : BitVec 16} {c : Check} (h : toPublic cfg x = .error c) :
    c = .scopeReserved := by
  rcases toPublic_cases cfg x with ⟨-, e⟩ | ⟨-, e⟩ <;> cases e.symm.trans h
  rfl

theorem parseValue_error {cfg : Config} {n : BitVec 128} {s : State} {c : Check} (h : parseValue cfg n s = .error c) :
    c = .scopeReserved := by
  rcases parseValue_cases cfg n s with ⟨-, e⟩ | ⟨-, p, -, e⟩ <;> cases e.symm.trans h
  rfl

/-- The checks each command makes (spec/60_exceptions.md R203). -/
def checksOf : Instr → List Check
  | .nop | .b32enc | .hexenc | .unpack | .cmp => []
  | .b32dec => [.len, .char, .overflow]
  | .hexdec => [.len, .group, .char]
  | .pack => [.tsRange]
  | .sc2st => [.scopeRange]
  | .sc2pub => [.scopeReserved]
  | .make => [.tsRange, .scopeRange]
  | .parseb32 => [.len, .char, .overflow, .scopeReserved]
  | .parsehex => [.len, .group, .char, .scopeReserved]

/-- A command fails only a check of its own. -/
theorem pseudocode_error_mem {cfg : Config} {i : Instr} {s : State} {c : Check} (h : pseudocode cfg i s = .error c) :
    c ∈ checksOf i := by
  cases i with
  | nop | b32enc | hexenc | unpack | cmp => cases h
  | b32dec =>
    rcases b32decCmd_cases cfg s with ⟨c', hdec, e⟩ | ⟨n, -, e⟩ <;> cases e.symm.trans h
    exact b32Decode_error_mem hdec
  | hexdec =>
    rcases hexdecCmd_cases s with ⟨c', hdec, e⟩ | ⟨n, -, e⟩ <;> cases e.symm.trans h
    exact hexDecode_error_mem hdec
  | pack =>
    rcases packCmd_cases s with ⟨-, e⟩ | ⟨-, e⟩ <;> cases e.symm.trans h
    exact List.mem_singleton_self _
  | sc2st =>
    rcases sc2stCmd_cases s with ⟨c', hx, e⟩ | ⟨x, -, e⟩ <;> cases e.symm.trans h
    exact List.mem_singleton.mpr (toStored_error hx)
  | sc2pub =>
    rcases sc2pubCmd_cases cfg s with ⟨c', hp, e⟩ | ⟨p, -, e⟩ <;> cases e.symm.trans h
    exact List.mem_singleton.mpr (toPublic_error hp)
  | make =>
    rcases makeCmd_cases cfg s with ⟨-, e⟩ | ⟨-, -, e⟩ | ⟨-, x, p, -, -, -, e⟩ <;> cases e.symm.trans h
    · exact List.mem_cons_self
    · exact List.mem_cons_of_mem _ List.mem_cons_self
  | parseb32 =>
    rcases parseb32Cmd_cases cfg s with ⟨c', hdec, e⟩ | ⟨n, -, e⟩
    · cases e.symm.trans h
      exact List.mem_append_left [.scopeReserved] (b32Decode_error_mem hdec)
    · cases parseValue_error (e.symm.trans h)
      decide
  | parsehex =>
    rcases parsehexCmd_cases cfg s with ⟨c', hdec, e⟩ | ⟨n, -, e⟩
    · cases e.symm.trans h
      exact List.mem_append_left [.scopeReserved] (hexDecode_error_mem hdec)
    · cases parseValue_error (e.symm.trans h)
      decide

/-- The reports of the checks of a command are among the reports listed for it. -/
theorem report_mem_of_check_mem (i : Instr) : ∀ c ∈ checksOf i, (c.kind.code, c.code) ∈ reportsOf i := by
  cases i <;> decide

theorem success_mem_reportsOf (i : Instr) : (0, 0) ∈ reportsOf i := by cases i <;> decide

/-- Settles O41: a commit reports 0/0, a raise one of the command's checks. -/
theorem eachCommandReportsOnlyItsErrors : Obligations.EachCommandReportsOnlyItsErrors := by
  intro i s t h
  rcases exec_cases h with ⟨u, -, rfl⟩ | ⟨c, herr, rfl⟩
  · exact success_mem_reportsOf i
  · exact report_mem_of_check_mem i c (pseudocode_error_mem herr)

/-! ### What a command leaves unchanged -/

/-- The registers that the table of spec/10_state.md R29 does not mark as written by the command hold in `t` what they
hold in `s`. -/
def keepsUnwritten (i : Instr) (s t : State) : Prop :=
  t.w = s.w ∧ t.bus = s.bus ∧ t.rdata = s.rdata ∧
  (i ∉ [Instr.b32dec, .hexdec, .pack, .make, .parseb32, .parsehex] → t.v = s.v) ∧
  (i ∉ [Instr.unpack, .parseb32, .parsehex] → t.tsw = s.tsw) ∧
  (i ∉ [Instr.sc2pub, .make, .parseb32, .parsehex] → t.psc = s.psc) ∧
  (i ∉ [Instr.unpack, .sc2st, .make, .parseb32, .parsehex] → t.ssc = s.ssc) ∧
  (i ∉ [Instr.unpack, .parseb32, .parsehex] → t.en = s.en) ∧
  (i ∉ [Instr.b32enc, .hexenc] → t.t = s.t ∧ t.tlen = s.tlen) ∧
  (i ≠ .hexenc → ∀ k, 26 ≤ k → k < 36 → ch t k = ch s k) ∧
  (i ≠ .cmp → t.cmpr = s.cmpr)

/-- The report registers are not among those the table is about. -/
theorem keepsUnwritten_succeed {i : Instr} {s u : State} (h : keepsUnwritten i s u) : keepsUnwritten i s u.succeed := h

theorem keepsUnwritten_raise (i : Instr) (s : State) (c : Check) : keepsUnwritten i s (s.raise c) := by
  simp [keepsUnwritten, ch]

theorem parseValue_keepsUnwritten {cfg : Config} {n : BitVec 128} {s u : State} (h : parseValue cfg n s = .ok u)
    {i : Instr} (hi : i = .parseb32 ∨ i = .parsehex) : keepsUnwritten i s u := by
  rcases parseValue_cases cfg n s with ⟨-, e⟩ | ⟨-, p, -, e⟩ <;> cases e.symm.trans h
  rcases hi with rfl | rfl <;> simp [keepsUnwritten, ch]

/-- A command that succeeds writes only the registers its rule names. -/
theorem pseudocode_keepsUnwritten {cfg : Config} {i : Instr} {s u : State} (h : pseudocode cfg i s = .ok u) :
    keepsUnwritten i s u := by
  cases i with
  | nop | hexenc | unpack | cmp => cases h; simp [keepsUnwritten, ch]
  | b32enc => cases h; simp +contextual [keepsUnwritten, ch]
  | b32dec =>
    rcases b32decCmd_cases cfg s with ⟨c, -, e⟩ | ⟨n, -, e⟩ <;> cases e.symm.trans h
    simp [keepsUnwritten, ch]
  | hexdec =>
    rcases hexdecCmd_cases s with ⟨c, -, e⟩ | ⟨n, -, e⟩ <;> cases e.symm.trans h
    simp [keepsUnwritten, ch]
  | pack =>
    rcases packCmd_cases s with ⟨-, e⟩ | ⟨-, e⟩ <;> cases e.symm.trans h
    simp [keepsUnwritten, ch]
  | sc2st =>
    rcases sc2stCmd_cases s with ⟨c, -, e⟩ | ⟨x, -, e⟩ <;> cases e.symm.trans h
    simp [keepsUnwritten, ch]
  | sc2pub =>
    rcases sc2pubCmd_cases cfg s with ⟨c, -, e⟩ | ⟨p, -, e⟩ <;> cases e.symm.trans h
    simp [keepsUnwritten, ch]
  | make =>
    rcases makeCmd_cases cfg s with ⟨-, e⟩ | ⟨-, -, e⟩ | ⟨-, x, p, -, -, -, e⟩ <;> cases e.symm.trans h
    simp [keepsUnwritten, ch]
  | parseb32 =>
    rcases parseb32Cmd_cases cfg s with ⟨c, -, e⟩ | ⟨n, -, e⟩
    · cases e.symm.trans h
    · exact parseValue_keepsUnwritten (e.symm.trans h) (.inl rfl)
  | parsehex =>
    rcases parsehexCmd_cases cfg s with ⟨c, -, e⟩ | ⟨n, -, e⟩
    · cases e.symm.trans h
    · exact parseValue_keepsUnwritten (e.symm.trans h) (.inr rfl)

/-- Settles O39: a raise writes no register of the table, a commit those the command's rule names. -/
theorem commandsWriteOnlyTheirRegisters : Obligations.CommandsWriteOnlyTheirRegisters := by
  intro i s t h
  rcases exec_cases h with ⟨u, hok, rfl⟩ | ⟨c, -, rfl⟩
  · exact keepsUnwritten_succeed (pseudocode_keepsUnwritten hok)
  · exact keepsUnwritten_raise i s c

/-! ### What a command depends on -/

/-- Two runs of a command end alike: in the same failed check, or in states that agree on what the command writes. -/
def endAlike (i : Instr) : Except Check State → Except Check State → Prop
  | .error c, r => r = .error c
  | .ok t, r => ∃ t', r = .ok t' ∧ agreeOnResults i t t'

/-- The decoder of form A never looks at `T[26..35]`, nor at a character when the length is wrong. -/
theorem b32Decode_of_agree {s s' : State} (h : agreeOnOperands .b32dec s s') (cfg : Config) :
    b32Decode cfg s.tlen s.t = b32Decode cfg s'.tlen s'.t := by
  obtain ⟨hlen, htext⟩ := h
  rw [← hlen]
  exact b32Decode_congr s.tlen fun h26 k hk => congrArg _ (htext h26 k hk)

/-- The decoder of form B looks at no character when the length is wrong. -/
theorem hexDecode_of_agree {s s' : State} (h : agreeOnOperands .hexdec s s') :
    hexDecode s.tlen s.t = hexDecode s'.tlen s'.t := by
  obtain ⟨hlen, htext⟩ := h
  rw [← hlen]
  by_cases h36 : s.tlen = 36
  · rw [htext h36]
  · rw [hexDecode_of_len_ne h36, hexDecode_of_len_ne h36]

/-- The common end of the parse commands writes registers that depend on the value parsed only. -/
theorem parseValue_endAlike (cfg : Config) (n : BitVec 128) (s s' : State) :
    endAlike .parseb32 (parseValue cfg n s) (parseValue cfg n s') := by
  unfold parseValue
  cases toPublic cfg (unpack n).2.1 with
  | error c => rfl
  | ok p => exact ⟨_, rfl, rfl, rfl, rfl, rfl, rfl⟩

/-- A command ends alike on two states that agree on the registers it reads. -/
theorem pseudocode_endAlike {i : Instr} {s s' : State} (h : agreeOnOperands i s s') (cfg : Config) :
    endAlike i (pseudocode cfg i s) (pseudocode cfg i s') := by
  cases i with
  | nop => exact ⟨_, rfl, trivial⟩
  | b32enc =>
    have hv : s.v = s'.v := h
    refine ⟨_, rfl, rfl, fun k hk => ?_⟩
    simp only [ch, charAt_putText_lt _ _ k hk (by omega), hv]
  | b32dec =>
    simp only [pseudocode, b32decCmd, b32Decode_of_agree h cfg]
    cases b32Decode cfg s'.tlen s'.t with
    | error c => rfl
    | ok n => exact ⟨_, rfl, rfl⟩
  | hexenc =>
    have hv : s.v = s'.v := h
    refine ⟨_, rfl, rfl, ?_⟩
    simp only [putText_full, hv]
  | hexdec =>
    simp only [pseudocode, hexdecCmd, hexDecode_of_agree h]
    cases hexDecode s'.tlen s'.t with
    | error c => rfl
    | ok n => exact ⟨_, rfl, rfl⟩
  | pack =>
    obtain ⟨hts, hsc, hen⟩ := h
    simp only [pseudocode, packCmd, hts, hsc, hen]
    cases tsInRange s'.tsw with
    | false => rfl
    | true => exact ⟨_, rfl, rfl⟩
  | unpack =>
    have hv : s.v = s'.v := h
    refine ⟨_, rfl, ?_⟩
    simp only [agreeOnResults, hv, and_self]
  | sc2st =>
    have hpsc : s.psc = s'.psc := h
    simp only [pseudocode, sc2stCmd, hpsc]
    cases toStored s'.psc with
    | error c => rfl
    | ok x => exact ⟨_, rfl, rfl⟩
  | sc2pub =>
    have hssc : s.ssc = s'.ssc := h
    simp only [pseudocode, sc2pubCmd, hssc]
    cases toPublic cfg s'.ssc with
    | error c => rfl
    | ok p => exact ⟨_, rfl, rfl⟩
  | make =>
    obtain ⟨hts, hpsc, hen⟩ := h
    simp only [pseudocode, makeCmd, hts, hpsc, hen]
    cases tsInRange s'.tsw with
    | false => rfl
    | true =>
      cases toStored s'.psc with
      | error c => rfl
      | ok x =>
        cases hp : toPublic cfg x with
        | error c => simp only [hp]; rfl
        | ok p => simp only [hp]; exact ⟨_, rfl, rfl, rfl, rfl⟩
  | parseb32 =>
    simp only [pseudocode, parseb32Cmd, b32Decode_of_agree h cfg]
    cases b32Decode cfg s'.tlen s'.t with
    | error c => rfl
    | ok n => exact parseValue_endAlike cfg n s s'
  | parsehex =>
    simp only [pseudocode, parsehexCmd, hexDecode_of_agree h]
    cases hexDecode s'.tlen s'.t with
    | error c => rfl
    | ok n => exact parseValue_endAlike cfg n s s'
  | cmp =>
    obtain ⟨hv, hw⟩ := h
    refine ⟨_, rfl, ?_⟩
    simp only [agreeOnResults, hv, hw]

/-- Runs that end alike leave the same report, and on success registers that agree. -/
theorem complete_of_endAlike {i : Instr} {r r' : Except Check State} (h : endAlike i r r') (s s' : State) :
    (complete s r).status = (complete s' r').status ∧ (complete s r).detail = (complete s' r').detail ∧
      ((complete s r).status = 0 → agreeOnResults i (complete s r) (complete s' r')) := by
  cases r with
  | error c =>
    obtain rfl : r' = .error c := h
    exact ⟨rfl, rfl, fun h0 => absurd h0 (kind_code_ne_zero c.kind)⟩
  | ok t =>
    obtain ⟨t', rfl, hagree⟩ := h
    refine ⟨rfl, rfl, fun _ => ?_⟩
    cases i <;> exact hagree

/-- Settles O40: the two runs end alike. -/
theorem commandsReadOnlyTheirRegisters : Obligations.CommandsReadOnlyTheirRegisters := by
  intro i s s' h
  exact ⟨_, _, exec_eq i s, exec_eq i s', complete_of_endAlike (pseudocode_endAlike h hardware) s s'⟩

/-- The report registers are no operands. -/
theorem agreeOnOperands_raise (i : Instr) (s : State) (c : Check) : agreeOnOperands i s (s.raise c) := by
  cases i <;> simp [agreeOnOperands, ch]

/-- Settles O42: the failed command left every operand as it was, so it ends alike, in the failed check reported. -/
theorem aReissuedFailureFailsTheSameWay : Obligations.AReissuedFailureFailsTheSameWay := by
  intro i s t h hfail
  rcases exec_cases h with ⟨u, -, rfl⟩ | ⟨c, herr, rfl⟩
  · exact absurd rfl hfail
  · have halike := pseudocode_endAlike (agreeOnOperands_raise i s c) hardware
    rw [herr] at halike
    have hagain : pseudocode hardware i (s.raise c) = .error c := halike
    rw [exec_eq, hagain, complete_error]
    rfl

/-! ### The reset contents -/

theorem b32Group_zero_value (k : Nat) : b32Group 0 k = 0 := by simp [b32Group]

theorem hexNibble_zero_value (j : Nat) : hexNibble 0 j = 0 := by simp [hexNibble]

/-- Form A of the value 0 is 26 characters `0`. -/
theorem charAt_b32Encode_zero (t : Vector Byte 36) {k : Nat} (hk : k < 26) :
    charAt (putText t (b32Encode 0)) k = 0x30 := by
  rw [charAt_putText_lt _ _ k hk (by omega), b32Encode_getElem, b32Group_zero_value]
  rfl

/-- The digits of form B of the value 0 are `0`. -/
theorem charAt_hexEncode_zero {j : Nat} (hj : j < 32) : charAt (hexEncode 0) (digitPos j) = 0x30 := by
  rw [digitPos_eq_hexpos j hj, charAt_hexEncode_hexpos 0 hj, hexNibble_zero_value]
  rfl

theorem exec_make_reset : exec .make State.reset =
    .next { State.reset with v := 0x000000000000FFFF0000000000000000, ssc := 0xFFFF, psc := 0x0000FFFF } := by
  have hts : State.reset.tsw.extractLsb' 48 16 = 0 := by decide
  have hx : toStored State.reset.psc = .ok 0xFFFF := toStored_zero
  have hp : toPublic hardware 0xFFFF = .ok 0xFFFF := toPublic_hardware _ (by decide)
  rw [exec_make, complete_make_of_ok hts hx hp]
  exact congrArg Host.Outcome.next (by decide)

/-- Settles O43, each command by its own equation. -/
theorem commandsOnTheResetState : Obligations.CommandsOnTheResetState := by
  refine ⟨exec_nop_eq _, ⟨_, exec_b32enc_eq _, fun k hk => charAt_b32Encode_zero _ hk⟩,
    ⟨_, exec_hexenc_eq _, fun j hj => charAt_hexEncode_zero hj, fun p hp => charAt_hexEncode_hyphen _ hp⟩, ?unpack,
    ?pack, ?cmp, exec_sc2st_of_ok toStored_zero, exec_make_reset, ?sc2pub, ?decoders⟩
  case unpack => exact (exec_unpack_eq _).trans (congrArg Host.Outcome.next (by decide))
  case pack => exact (exec_pack_of_inRange (by decide)).trans (congrArg Host.Outcome.next (by decide))
  case cmp => exact (exec_cmp_eq _).trans (congrArg Host.Outcome.next (by decide))
  case sc2pub => rw [exec_sc2pub, complete_sc2pub_of_error (toPublic_zero hardware)]; rfl
  case decoders =>
    obtain ⟨-, -, -, hdecoders⟩ := resetZeroesEveryRegister
    exact hdecoders

end Sys2Proof.Machine
end

section
/-! Identifiers: the Identifier view after MAKE and the two parse commands (spec/10_state.md R38), the round trips
through both text forms (spec/44_identifier.md R184), and the read-back parameter
(spec/93_implementation_defined.md U4). -/

namespace Sys2Proof.Machine

open Sys2Proof.Claims

/-! ### The Identifier view -/

/-- The report registers are no part of the Identifier. -/
@[simp] theorem isIdentifier_succeed (cfg : Config) (s : State) : s.succeed.isIdentifier cfg ↔ s.isIdentifier cfg :=
  Iff.rfl

/-- MAKE succeeds with the timestamp and the scope in range, and the registers then hold one Identifier. -/
theorem makeCmd_isIdentifier {cfg : Config} {s m : State} (h : makeCmd cfg s = .ok m) : m.isIdentifier cfg := by
  rcases makeCmd_cases cfg s with ⟨-, e⟩ | ⟨-, -, e⟩ | ⟨hts, x, p, -, hx, hp, e⟩
  case inr.inr =>
    obtain rfl := Except.ok.inj (e.symm.trans h)
    exact made_isIdentifier hts hx hp
  all_goals exact nomatch e.symm.trans h

/-- What the parse commands commit is one Identifier: the fields written are those of the value written. -/
theorem parseValue_isIdentifier {cfg : Config} {n : BitVec 128} {s t : State} (h : parseValue cfg n s = .ok t) :
    t.isIdentifier cfg := by
  rcases parseValue_cases cfg n s with ⟨-, e⟩ | ⟨hne, p, hp, e⟩
  · exact nomatch e.symm.trans h
  · obtain rfl := Except.ok.inj (e.symm.trans h)
    have hv : n = pack (tsField ((n.extractLsb' 80 48).setWidth 64)) (n.extractLsb' 64 16) (n.extractLsb' 0 64) := by
      rw [tsField_setWidth]
      exact (pack_unpack n).symm
    exact ⟨hv, upper_setWidth_timestamp _, hne, p, hp, rfl⟩

theorem parseb32Cmd_isIdentifier {cfg : Config} {s t : State} (h : parseb32Cmd cfg s = .ok t) : t.isIdentifier cfg := by
  rcases parseb32Cmd_cases cfg s with ⟨c, -, e⟩ | ⟨n, -, e⟩
  · exact nomatch e.symm.trans h
  · exact parseValue_isIdentifier (e.symm.trans h)

theorem parsehexCmd_isIdentifier {cfg : Config} {s t : State} (h : parsehexCmd cfg s = .ok t) : t.isIdentifier cfg := by
  rcases parsehexCmd_cases cfg s with ⟨c, -, e⟩ | ⟨n, -, e⟩
  · exact nomatch e.symm.trans h
  · exact parseValue_isIdentifier (e.symm.trans h)

/-- Settles O53: each of the three commands that ends with `STATUS` 0 committed an Identifier. -/
theorem identifierCommandsLeaveAnIdentifier : Obligations.IdentifierCommandsLeaveAnIdentifier := by
  intro i s t hi h hstatus
  rcases exec_cases h with ⟨u, hok, rfl⟩ | ⟨c, -, rfl⟩
  · rw [isIdentifier_succeed]
    simp only [List.mem_cons, List.not_mem_nil, or_false] at hi
    rcases hi with rfl | rfl | rfl
    · exact makeCmd_isIdentifier hok
    · exact parseb32Cmd_isIdentifier hok
    · exact parsehexCmd_isIdentifier hok
  · exact absurd hstatus (kind_code_ne_zero c.kind)

/-! ### An Identifier through both text forms -/

/-- Parsing the value of the Identifier the registers hold changes nothing (spec/44_identifier.md R184). -/
theorem parseValue_of_isIdentifier {cfg : Config} {s : State} (h : s.isIdentifier cfg) :
    parseValue cfg s.v s = .ok s := by
  obtain ⟨hv, hts, -, p, hp, hpsc⟩ := h
  have hfields : unpack s.v = (tsField s.tsw, s.ssc, s.en) := hv ▸ unpack_pack (tsField s.tsw) s.ssc s.en
  simp only [parseValue, hfields, hp, setWidth_tsField hts, ← hpsc]

/-- The registers with form A of `V` in the text buffer (spec/40_base32.md R121). -/
def withFormA (s : State) : State := { s with t := putText s.t (b32Encode s.v), tlen := 26 }

/-- The registers with form B of `V` in the text buffer (spec/43_hex.md R161). -/
def withFormB (s : State) : State := { s with t := putText s.t (hexEncode s.v), tlen := 36 }

section
variable {cfg : Config} {m : State}

/-- The text buffer is no part of the Identifier. -/
theorem isIdentifier_withFormA : (withFormA m).isIdentifier cfg ↔ m.isIdentifier cfg := by
  simp only [State.isIdentifier, withFormA]

theorem isIdentifier_withFormB : (withFormB m).isIdentifier cfg ↔ m.isIdentifier cfg := by
  simp only [State.isIdentifier, withFormB]

theorem parseb32Cmd_withFormA (h : m.isIdentifier cfg) : parseb32Cmd cfg (withFormA m) = .ok (withFormA m) := by
  have hdec : b32Decode cfg (withFormA m).tlen (withFormA m).t = .ok (withFormA m).v := by
    simp only [withFormA, base32DecodesWhatItEncodes cfg m.v m.t]
  simp only [parseb32Cmd, hdec, parseValue_of_isIdentifier (isIdentifier_withFormA.mpr h)]

theorem parsehexCmd_withFormB (h : m.isIdentifier cfg) : parsehexCmd cfg (withFormB m) = .ok (withFormB m) := by
  have hdec : hexDecode (withFormB m).tlen (withFormB m).t = .ok (withFormB m).v := by
    simp only [withFormB, putText_full, hexDecode_hexEncode]
  simp only [parsehexCmd, hdec, parseValue_of_isIdentifier (isIdentifier_withFormB.mpr h)]

end

/-- Settles O55: MAKE leaves an Identifier, and each parse of its encoded text leaves all as it was. -/
theorem anIdentifierSurvivesUnderEveryParameter : Obligations.AnIdentifierSurvivesUnderEveryParameter := by
  intro cfg s m hm
  have hid := makeCmd_isIdentifier hm
  refine ⟨⟨withFormA m, withFormA m, rfl, parseb32Cmd_withFormA hid, ?_⟩,
    ⟨withFormB m, withFormB m, rfl, parsehexCmd_withFormB hid, ?_⟩⟩
  · simp only [withFormA, and_self]
  · simp only [withFormB, and_self]

section
variable {m : State} (h : m.isIdentifier hardware)
include h

/-- B32ENC then PARSEB32 on an Identifier succeed and leave its five registers. -/
theorem exec_parseb32_after_b32enc :
    ∃ t u, exec .b32enc m = .next t ∧ exec .parseb32 t = .next u ∧ u.status = 0 ∧
      u.v = m.v ∧ u.tsw = m.tsw ∧ u.ssc = m.ssc ∧ u.psc = m.psc ∧ u.en = m.en := by
  have hparse := parseb32Cmd_withFormA ((isIdentifier_succeed hardware m).mpr h)
  refine ⟨withFormA m.succeed, (withFormA m.succeed).succeed, rfl, ?_, ?_⟩
  · rw [exec_parseb32, hparse, complete_ok]
  · simp [withFormA]

/-- HEXENC then PARSEHEX on an Identifier succeed and leave its five registers. -/
theorem exec_parsehex_after_hexenc :
    ∃ t u, exec .hexenc m = .next t ∧ exec .parsehex t = .next u ∧ u.status = 0 ∧
      u.v = m.v ∧ u.tsw = m.tsw ∧ u.ssc = m.ssc ∧ u.psc = m.psc ∧ u.en = m.en := by
  have hparse := parsehexCmd_withFormB ((isIdentifier_succeed hardware m).mpr h)
  refine ⟨withFormB m.succeed, (withFormB m.succeed).succeed, rfl, ?_, ?_⟩
  · rw [exec_parsehex, hparse, complete_ok]
  · simp [withFormB]

end

/-- Settles O54: with both operands in range MAKE leaves an Identifier, which survives both text forms. -/
theorem anIdentifierSurvivesBothTextForms : Obligations.AnIdentifierSurvivesBothTextForms := by
  intro s hts hpsc
  have hne := storedScope_ne_zero hpsc
  have hpub := toPublic_hardware _ hne
  have hid := made_isIdentifier hts hne hpub
  refine ⟨made s (storedScope s.psc) (storedScope s.psc), ?_, rfl, exec_parseb32_after_b32enc hid,
    exec_parsehex_after_hexenc hid⟩
  rw [exec_make, complete_make_of_ok hts (toStored_of_inRange hpsc) hpub]

/-! ### The read-back parameter -/

/-- An error report is the same under both parameter values. -/
theorem sameButReadback_raise (s : State) (c : Check) : sameButReadback (s.raise c) (s.raise c) :=
  ⟨fun h => absurd h.1 (kind_code_ne_zero c.kind), fun _ => rfl⟩

/-- Reading back the stored scope of `t` into `PSC`, on which the commands' other results do not depend: the two
parameter values differ at 65535 only (spec/42_scope.md R153). -/
theorem sameButReadback_sc2pub (u : BitVec 5) (s t : State) :
    sameButReadback (complete s (sc2pubCmd ⟨false, u⟩ t)) (complete s (sc2pubCmd ⟨true, u⟩ t)) := by
  by_cases h0 : t.ssc = 0
  · have herr : ∀ cfg, sc2pubCmd cfg t = .error .scopeReserved := fun cfg => by rw [sc2pubCmd, h0, toPublic_zero]
    rw [herr, herr, complete_error]
    exact sameButReadback_raise s .scopeReserved
  have hfalse : sc2pubCmd ⟨false, u⟩ t = .ok { t with psc := t.ssc.setWidth 32 } := by
    rw [sc2pubCmd, toPublic_eq_self h0 (.inl rfl)]
  by_cases hmax : t.ssc = 0xFFFF
  · have htrue : sc2pubCmd ⟨true, u⟩ t = .ok { t with psc := (0 : BitVec 16).setWidth 32 } := by
      rw [sc2pubCmd, hmax, toPublic_max_of_remap]
    rw [hfalse, htrue, complete_ok, complete_ok]
    have hpsc : t.ssc.setWidth 32 = 0x0000FFFF := by rw [hmax]; rfl
    exact ⟨fun _ => ⟨hpsc, rfl⟩, fun h => absurd ⟨rfl, hmax⟩ h⟩
  · have htrue : sc2pubCmd ⟨true, u⟩ t = .ok { t with psc := t.ssc.setWidth 32 } := by
      rw [sc2pubCmd, toPublic_eq_self h0 (.inr hmax)]
    rw [hfalse, htrue, complete_ok]
    exact ⟨fun h => absurd h.2 hmax, fun _ => rfl⟩

/-- MAKE fails before it reads the scope back, or ends with the read-back. -/
theorem makeCmd_error_or_sc2pub (s : State) : (∃ c, ∀ cfg, makeCmd cfg s = .error c) ∨
    ∃ t, ∀ cfg, makeCmd cfg s = sc2pubCmd cfg t := by
  cases hts : tsInRange s.tsw with
  | false => exact .inl ⟨.tsRange, fun cfg => by rw [makeCmd, hts]; rfl⟩
  | true =>
    cases hx : toStored s.psc with
    | error c => exact .inl ⟨c, fun cfg => by rw [makeCmd, hts, hx]; rfl⟩
    | ok x =>
      exact .inr ⟨{ s with v := pack (tsField s.tsw) x s.en, ssc := x }, fun cfg => by rw [makeCmd, hts, hx]; rfl⟩

/-- The parse commands end with the read-back of the scope they write. -/
theorem parseValue_eq_sc2pub (cfg : Config) (n : BitVec 128) (s : State) : parseValue cfg n s = sc2pubCmd cfg
    { s with v := n, tsw := (unpack n).1.setWidth 64, ssc := (unpack n).2.1, en := (unpack n).2.2 } := rfl

theorem sameButReadback_parseValue (u : BitVec 5) (n : BitVec 128) (s : State) :
    sameButReadback (complete s (parseValue ⟨false, u⟩ n s)) (complete s (parseValue ⟨true, u⟩ n s)) := by
  rw [parseValue_eq_sc2pub, parseValue_eq_sc2pub]
  exact sameButReadback_sc2pub u s _

theorem sameButReadback_make (u : BitVec 5) (s : State) :
    sameButReadback (complete s (makeCmd ⟨false, u⟩ s)) (complete s (makeCmd ⟨true, u⟩ s)) := by
  rcases makeCmd_error_or_sc2pub s with ⟨c, e⟩ | ⟨t, e⟩
  · rw [e, e, complete_error]
    exact sameButReadback_raise s c
  · rw [e, e]
    exact sameButReadback_sc2pub u s t

/-- The decoder of form A does not look at the read-back parameter. -/
theorem b32Decode_readback (u : BitVec 5) (len : Byte) (t : Vector Byte 36) :
    b32Decode ⟨true, u⟩ len t = b32Decode ⟨false, u⟩ len t := b32Decode_congr len fun _ _ _ => rfl

theorem sameButReadback_parseb32 (u : BitVec 5) (s : State) :
    sameButReadback (complete s (parseb32Cmd ⟨false, u⟩ s)) (complete s (parseb32Cmd ⟨true, u⟩ s)) := by
  rw [parseb32Cmd, parseb32Cmd, b32Decode_readback]
  cases b32Decode ⟨false, u⟩ s.tlen s.t with
  | error c => exact sameButReadback_raise s c
  | ok n => exact sameButReadback_parseValue u n s

theorem sameButReadback_parsehex (u : BitVec 5) (s : State) :
    sameButReadback (complete s (parsehexCmd ⟨false, u⟩ s)) (complete s (parsehexCmd ⟨true, u⟩ s)) := by
  rw [parsehexCmd, parsehexCmd]
  cases hexDecode s.tlen s.t with
  | error c => exact sameButReadback_raise s c
  | ok n => exact sameButReadback_parseValue u n s

/-- Settles O56: the four commands fail alike or end with the read-back, and B32DEC has none. -/
theorem theReadbackParameterTouchesOnlyPsc : Obligations.TheReadbackParameterTouchesOnlyPsc := fun u s =>
  ⟨sameButReadback_sc2pub u s s, sameButReadback_make u s, sameButReadback_parseb32 u s, sameButReadback_parsehex u s,
    by rw [b32decCmd, b32decCmd, b32Decode_readback]⟩

end Sys2Proof.Machine
end

section
/-! The opcode map in both directions (spec/30_encoding.md R80, R82). -/

namespace Sys2Proof

/-- Each row of the opcode map is the code of its command. -/
theorem eq_encode_of_decode {c : Byte} {i : Instr} (h : decode c = .ok i) : c = encode i := by
  unfold decode at h
  split at h <;> cases h <;> exact BitVec.eq_of_toNat_eq ‹_›

/-- Settles O19: the two directions. -/
theorem decodeAndEncodeAgree : Obligations.DecodeAndEncodeAgree := fun i _ =>
  ⟨eq_encode_of_decode, fun h => h ▸ decode_encode i⟩

end Sys2Proof
end

section
/-! The register space byte by byte (spec/20_memory.md R52 to R57): what a read returns, what a write does, and that the
bytes determine the registers. -/

namespace Sys2Proof.Machine

open Sys2Proof.Claims

/-! ### Reads -/

/-- Byte `i` of a register of `m + 1` bytes, with its place counted from the least significant byte. -/
theorem byteOf_eq {m n i j : Nat} (x : BitVec n) (hn : n = 8 * (m + 1)) (hj : j = i) (hi : i ≤ m) :
    byteOf x i = x.extractLsb' (8 * (m - j)) 8 := by
  rw [byteOf, show n - 8 * (i + 1) = 8 * (m - j) by omega]

/-- What stands at an address of the map reads as the byte the claims' map gives for the address. -/
theorem readLoc_eq_byteAt (s : State) {l : Loc} {n : Nat} (h : l.standsAt n = true) : s.readLoc l = byteAt s n := by
  cases l with
  | v i | w i | tsw i | psc i | ssc i | en i =>
    simp only [Loc.standsAt, beq_iff_eq] at h
    rw [byteAt]
    repeat rw [if_neg (by omega)]
    rw [if_pos (by omega)]
    exact byteOf_eq _ rfl (by omega) (by omega)
  | t i =>
    simp only [Loc.standsAt, beq_iff_eq] at h
    rw [byteAt]
    repeat rw [if_neg (by omega)]
    rw [if_pos (by omega), h, Nat.add_sub_cancel_left, charAt_eq _ _ i.isLt]
    rfl
  | tlen | status | detail | cmpr | cmd =>
    simp only [Loc.standsAt, beq_iff_eq] at h
    rw [h]
    rfl
  | reserved =>
    simp only [Loc.standsAt, Bool.or_eq_true, Bool.and_eq_true, beq_iff_eq, decide_eq_true_eq] at h
    rcases h with ((rfl | rfl) | ⟨hlo, hhi⟩) | hge
    · rfl
    · rfl
    · rw [byteAt]
      repeat rw [if_neg (by omega)]
      rw [if_pos (by omega), State.readLoc]
    · rw [byteAt]
      repeat rw [if_neg (by omega)]
      rw [State.readLoc]

/-- Settles O4: the location the model's map gives for an address stands there. -/
theorem aReadReturnsTheAddressedByte : Obligations.AReadReturnsTheAddressedByte := fun s a =>
  readLoc_eq_byteAt s (locOf_standsAt a)

/-! ### Writes -/

/-- The read-write addresses are those of the locations that store a byte. -/
theorem readWrite_iff_stores (a : Addr) : readWrite a.toNat ↔ (locOf a).stores = true := by
  unfold readWrite
  revert a
  decide

theorem memWrite_of_ne_cmdAddr {a : Addr} (h : a ≠ cmdAddr) (d : Byte) (s : State) :
    memWrite a d s = .next (s.writeLoc (locOf a) d) := by
  rcases memWrite_cases a d s with ⟨ha, -⟩ | ⟨-, hw⟩
  · exact absurd ha h
  · exact hw

/-- A byte that decodes to a command executes it (spec/20_memory.md R52). -/
theorem command_of_decode_ok {c : Byte} {i : Instr} (h : decode c = .ok i) (s : State) : command c s = exec i s := by
  rcases command_cases c s with ⟨j, hj, e⟩ | ⟨x, hx, -⟩
  · obtain rfl : i = j := Except.ok.inj (h.symm.trans hj)
    rw [e, exec_eq]
  · exact nomatch h.symm.trans hx

theorem exists_decode_error {c : Byte} (h : ∀ i, decode c ≠ .ok i) : ∃ e, decode c = .error e := by
  cases he : decode c with
  | ok i => exact absurd he (h i)
  | error e => exact ⟨e, rfl⟩

/-- A byte read after a byte write, at any two locations. -/
theorem readLoc_writeLoc (s : State) (l m : Loc) (b : Byte) :
    (s.writeLoc l b).readLoc m = if m = l ∧ l.stores = true then b else s.readLoc m := by
  by_cases hm : m = l
  · subst hm
    cases hs : m.stores with
    | true => rw [readLoc_writeLoc_self s m b hs, if_pos ⟨rfl, rfl⟩]
    | false => rw [writeLoc_of_not_stores s m b hs, if_neg (by simp)]
  · rw [readLoc_writeLoc_ne s l m b hm, if_neg fun h => hm h.1]

/-- A location that stores a byte stands at one address. -/
theorem locOf_eq_iff_of_stores {a : Addr} (h : (locOf a).stores = true) (b : Addr) : locOf b = locOf a ↔ b = a := by
  have hres : locOf a ≠ .reserved := fun e => by rw [e] at h; cases h
  exact ⟨fun e => (locOf_inj a b e.symm hres).symm, congrArg locOf⟩

/-- The byte at an address after a byte was stored at an address: that byte there, the old byte elsewhere. -/
theorem memRead_writeLoc {a : Addr} (h : (locOf a).stores = true) (s : State) (d : Byte) (b : Addr) :
    (s.writeLoc (locOf a) d).memRead b = if b = a then d else s.memRead b := by
  simp only [State.memRead, readLoc_writeLoc, locOf_eq_iff_of_stores h, h, and_true]

/-- Settles O6: the three clauses are a write to a location that stores, to the command port, and to any other. -/
theorem aWriteStoresOneByteOrRunsACommand : Obligations.AWriteStoresOneByteOrRunsACommand := by
  refine fun s a d => ⟨fun hrw => ?stored, ?command, fun hrw hcmd => ?ignored⟩
  case stored =>
    have hstores := (readWrite_iff_stores a).mp hrw
    have hcmd : a ≠ cmdAddr := by
      rintro rfl
      exact absurd hstores (by decide)
    refine ⟨_, memWrite_of_ne_cmdAddr hcmd d s, s.writeLoc_bus _ d, s.writeLoc_rdata _ d, fun b hb => ?_⟩
    have hb' : (BitVec.ofNat 7 b).toNat = b := by rw [BitVec.toNat_ofNat]; omega
    have hiff : BitVec.ofNat 7 b = a ↔ b = a.toNat := by rw [← BitVec.toNat_inj, hb']
    have hread := memRead_writeLoc hstores s d (BitVec.ofNat 7 b)
    rwa [aReadReturnsTheAddressedByte, aReadReturnsTheAddressedByte, hb', if_congr hiff rfl rfl] at hread
  case command =>
    rintro rfl
    refine ⟨fun i hi => (memWrite_cmdAddr d s).trans (command_of_decode_ok hi s), fun hnone => ?_⟩
    obtain ⟨e, he⟩ := exists_decode_error hnone
    exact (memWrite_cmdAddr d s).trans (command_of_decode_error he s)
  case ignored =>
    have hstores : (locOf a).stores = false := by rwa [readWrite_iff_stores, Bool.not_eq_true] at hrw
    exact memWrite_of_not_stores hstores (fun e => hcmd ((locOf_eq_cmd_iff a).mp e)) d s

/-- Settles O8: the three registers are at no read-write address, and the command port reads `0x00`. -/
theorem readOnlyRegistersIgnoreWrites : Obligations.ReadOnlyRegistersIgnoreWrites := by
  refine fun s a d => ⟨fun ha => ?_, rfl⟩
  obtain ⟨-, -, hignored⟩ := aWriteStoresOneByteOrRunsACommand s a d
  refine hignored (by unfold readWrite; omega) ?_
  rintro rfl
  exact absurd ha (by decide)

/-! ### The bytes determine the registers -/

/-- States whose locations all read the same hold the same registers. -/
theorem eq_of_readLoc_eq {s t : State} (h : ∀ l, s.readLoc l = t.readLoc l) (hbus : s.bus = t.bus)
    (hrdata : s.rdata = t.rdata) : s = t := by
  have hv : s.v = t.v := eq_of_byteOf_eq (k := 16) _ _ rfl fun i hi => h (.v ⟨i, hi⟩)
  have hw : s.w = t.w := eq_of_byteOf_eq (k := 16) _ _ rfl fun i hi => h (.w ⟨i, hi⟩)
  have htsw : s.tsw = t.tsw := eq_of_byteOf_eq (k := 8) _ _ rfl fun i hi => h (.tsw ⟨i, hi⟩)
  have hpsc : s.psc = t.psc := eq_of_byteOf_eq (k := 4) _ _ rfl fun i hi => h (.psc ⟨i, hi⟩)
  have hssc : s.ssc = t.ssc := eq_of_byteOf_eq (k := 2) _ _ rfl fun i hi => h (.ssc ⟨i, hi⟩)
  have hen : s.en = t.en := eq_of_byteOf_eq (k := 8) _ _ rfl fun i hi => h (.en ⟨i, hi⟩)
  have ht : s.t = t.t := Vector.ext fun i hi => h (.t ⟨i, hi⟩)
  have htlen : s.tlen = t.tlen := h .tlen
  have hstatus : s.status = t.status := h .status
  have hdetail : s.detail = t.detail := h .detail
  have hcmpr : s.cmpr = t.cmpr := h .cmpr
  cases s
  cases t
  simp_all only

end Sys2Proof.Machine
end

section
/-! One step of the machine (spec/20_memory.md R61, R67; spec/70_reset_and_hazards.md R240, R246, R247). -/

namespace Sys2Proof.Machine

open Sys2Proof.Claims

/-! ### The step on the edge the host presents -/

section
variable {s : State} {e : Edge} {rest : List Edge} (h : s.bus = e :: rest)
include h

/-- A step takes the next edge from the list and clocks it. -/
theorem step_of_bus : step s = clockEdge e { s with bus := rest } := by
  rw [step_eq, nextEdge_of_bus h, State.takeEdge, h, List.tail_cons]

theorem step_of_rst (hrst : e.rst = true) :
    step s = .next { State.reset with bus := rest, rdata := rdataAt e { s with bus := rest } } := by
  rw [step_of_bus h, clockEdge, if_pos hrst]
  rfl

/-- An edge that does not write shows its byte and changes no register. -/
theorem step_of_not_write (hrst : e.rst = false) (hwr : (e.sel && e.wr) = false) :
    step s = .next { s with bus := rest, rdata := rdataAt e { s with bus := rest } } := by
  rw [step_of_bus h, clockEdge, if_neg (by simp [hrst]), if_neg (by simp [hwr])]

theorem step_of_write (hrst : e.rst = false) (hsel : e.sel = true) (hwr : e.wr = true) :
    step s = memWrite e.addr e.wdata { s with bus := rest, rdata := 0 } := by
  have hr : rdataAt e { s with bus := rest } = 0 := by rw [rdataAt, hsel, hwr]; rfl
  rw [step_of_bus h, clockEdge, if_neg (by simp [hrst]), if_pos (by simp [hsel, hwr]), hr]

end

/-- Settles O2: the reset branch of the clock edge comes before any transaction. -/
theorem aResetEdgeResetsEveryRegister : Obligations.AResetEdgeResetsEveryRegister := fun _ _ _ h hrst =>
  ⟨_, step_of_rst h hrst⟩

/-- Settles O3: the edge writes nothing and reads nothing; an empty list stands for such an edge. -/
theorem anEdgeWithoutTransactionChangesNoRegister : Obligations.AnEdgeWithoutTransactionChangesNoRegister := by
  refine ⟨fun s e rest h hrst hsel => ?_, fun s h => ?_⟩
  · have hr : rdataAt e { s with bus := rest } = 0 := by rw [rdataAt, hsel]; rfl
    rw [step_of_not_write h hrst (by rw [hsel]; rfl), hr]
  · rw [step_eq, nextEdge, h, State.takeEdge, h]
    rfl

/-- Settles O5: a read edge writes nothing, and what it shows is the byte of the map. -/
theorem aReadStepChangesNoRegister : Obligations.AReadStepChangesNoRegister := by
  intro s e rest h hrst hsel hwr
  have hr : rdataAt e { s with bus := rest } = byteAt s e.addr.toNat := by
    rw [rdataAt, hsel, hwr]
    exact aReadReturnsTheAddressedByte _ _
  rw [step_of_not_write h hrst (by rw [hwr, Bool.and_false]), hr]

/-- Settles O9: the write branch of the clock edge, which shows no byte. -/
theorem aWriteStepIsTheWriteTransaction : Obligations.AWriteStepIsTheWriteTransaction := fun _ _ _ =>
  step_of_write

/-- A table word of 8 bits that is a command is the byte that decodes to it. -/
theorem decode_of_decodeTableWord {w : Nat} {i : Instr} (h : decodeTableWord 8 w = some i) :
    w < 2 ^ 8 ∧ decode (BitVec.ofNat 8 w) = .ok i := by
  unfold decodeTableWord at h
  split_ifs at h with hw
  refine ⟨hw.2, ?_⟩
  cases hd : decode (BitVec.ofNat 8 w) with
  | ok j => rw [hd] at h; exact congrArg _ (Option.some.inj h)
  | error e => rw [hd] at h; cases h

/-- Settles O10: the step is the write to the command port, and its byte decodes to the command. -/
theorem aStepRunsTheDecodedCommand : Obligations.AStepRunsTheDecodedCommand := by
  refine ⟨fun s c i rest h hdec => ?_, fun s w i h => ?_⟩
  · calc step s
      _ = memWrite cmdAddr c { s with bus := rest, rdata := 0 } := step_of_write h rfl rfl rfl
      _ = command c { s with bus := rest, rdata := 0 } := memWrite_cmdAddr c _
      _ = exec i { s with bus := rest, rdata := 0 } := command_of_decode_ok hdec _
  · obtain ⟨hw, hdec⟩ := decode_of_decodeTableWord h
    rw [step_withFetchWord s w hw, command_of_decode_ok hdec]

/-! ### Everything a step can do -/

/-- The registers with the next edge taken and its output recorded: what the edge acts on. -/
def presented (s : State) : State := { s.takeEdge with rdata := rdataAt (nextEdge s) s.takeEdge }

@[simp] theorem presented_status (s : State) : (presented s).status = s.status := rfl
@[simp] theorem presented_detail (s : State) : (presented s).detail = s.detail := rfl
@[simp] theorem presented_cmpr (s : State) : (presented s).cmpr = s.cmpr := rfl

/-- A step is a reset, a write to the command port, a byte write elsewhere, or an edge that changes no register. -/
theorem step_cases (s : State) :
    ((nextEdge s).rst = true ∧ step s = .next (presented s).resetRegs) ∨
    ((nextEdge s).sel = true ∧ (nextEdge s).wr = true ∧ (nextEdge s).addr = cmdAddr ∧
      step s = command (nextEdge s).wdata (presented s)) ∨
    step s = .next ((presented s).writeLoc (locOf (nextEdge s).addr) (nextEdge s).wdata) ∨
    step s = .next (presented s) := by
  rw [step_eq]
  rcases clockEdge_cases (nextEdge s) s.takeEdge with ⟨hrst, e⟩ | ⟨-, hsel, hwr, e⟩ | ⟨-, -, e⟩
  · exact .inl ⟨hrst, e⟩
  · rcases memWrite_cases (nextEdge s).addr (nextEdge s).wdata (presented s) with ⟨ha, ew⟩ | ⟨-, ew⟩
    · exact .inr (.inl ⟨hsel, hwr, ha, e.trans ew⟩)
    · exact .inr (.inr (.inl (e.trans ew)))
  · exact .inr (.inr (.inr e))

theorem command_completes (c : Byte) (s : State) : ∃ t, command c s = .next t := by
  rcases command_cases c s with ⟨i, -, e⟩ | ⟨x, -, e⟩
  · exact ⟨_, e⟩
  · exact ⟨_, e⟩

/-- Settles O12: each of the four things a step can do answers a next state, and so does each command. -/
theorem everyStepCompletes : Obligations.EveryStepCompletes := by
  refine ⟨fun s => ?_, fun i s => ⟨_, exec_eq i s⟩⟩
  rcases step_cases s with ⟨-, e⟩ | ⟨-, -, -, e⟩ | e | e
  · exact ⟨_, e⟩
  · exact e ▸ command_completes _ _
  · exact ⟨_, e⟩
  · exact ⟨_, e⟩

/-! ### The report registers -/

/-- Settles O13: after reset the report is 0/0 and `CMPR` is 0. -/
theorem resetReportsAreLegal : Obligations.ResetReportsAreLegal := ⟨by decide, by decide⟩

/-- Settles O15: a byte write stores to no report register, and the last branch changes no register at all. -/
theorem onlyACommandChangesTheReports : Obligations.OnlyACommandChangesTheReports := by
  intro s t hrst hcmd h
  rcases step_cases s with ⟨hr, -⟩ | ⟨hsel, hwr, ha, -⟩ | e | e
  · exact absurd hr (by simp [hrst])
  · exact absurd ⟨hsel, hwr, ha⟩ hcmd
  · cases e.symm.trans h
    simp
  · cases e.symm.trans h
    simp

/-- Only the three report registers matter to `reportsLegal`. -/
theorem reportsLegal_of_eq {s t : State} (h : s.reportsLegal) (hstatus : t.status = s.status)
    (hdetail : t.detail = s.detail) (hcmpr : t.cmpr = s.cmpr) : t.reportsLegal := by
  rwa [State.reportsLegal, hstatus, hdetail, hcmpr]

theorem report_legal (c : Check) : (c.kind.code, c.code) ∈ legalReports := by cases c <;> decide

theorem raise_keeps_reportsLegal {s : State} (h : s.reportsLegal) (c : Check) : (s.raise c).reportsLegal :=
  ⟨report_legal c, h.2⟩

theorem orderCode_le (a b : BitVec 128) : (orderCode a b).toNat ≤ 2 := by
  unfold orderCode
  split_ifs <;> decide

/-- A command leaves `CMPR` as it was or, under CMP, at an order. -/
theorem exec_keeps_cmpr_le {i : Instr} {s t : State} (h : s.cmpr.toNat ≤ 2) (he : exec i s = .next t) :
    t.cmpr.toNat ≤ 2 := by
  by_cases hi : i = .cmp
  · subst hi
    cases (exec_cmp_eq s).symm.trans he
    exact orderCode_le s.v s.w
  · obtain ⟨-, -, -, -, -, -, -, -, -, -, hkeep⟩ := commandsWriteOnlyTheirRegisters i s t he
    rwa [hkeep hi]

theorem exec_keeps_reportsLegal {i : Instr} {s t : State} (h : s.reportsLegal) (he : exec i s = .next t) :
    t.reportsLegal := by
  rcases exec_cases he with ⟨u, -, rfl⟩ | ⟨c, -, rfl⟩
  · exact ⟨List.mem_cons_self, exec_keeps_cmpr_le h.2 he⟩
  · exact raise_keeps_reportsLegal h c

theorem command_keeps_reportsLegal {c : Byte} {s t : State} (h : s.reportsLegal) (hc : command c s = .next t) :
    t.reportsLegal := by
  rcases command_cases c s with ⟨i, -, e⟩ | ⟨x, -, e⟩
  · exact exec_keeps_reportsLegal h ((exec_eq i s).trans (e.symm.trans hc))
  · cases e.symm.trans hc
    exact raise_keeps_reportsLegal h .illegalCmd

/-- Settles O14: a reset gives legal reports, a command keeps them legal, and nothing else a step does changes them. -/
theorem everyStepKeepsTheReportsLegal : Obligations.EveryStepKeepsTheReportsLegal := by
  intro s t h hstep
  have hpresented : (presented s).reportsLegal := h
  rcases step_cases s with ⟨-, e⟩ | ⟨-, -, -, e⟩ | e | e
  · cases e.symm.trans hstep
    exact resetReportsAreLegal
  · exact command_keeps_reportsLegal hpresented (e.symm.trans hstep)
  · cases e.symm.trans hstep
    exact reportsLegal_of_eq hpresented (State.writeLoc_status _ _ _) (State.writeLoc_detail _ _ _)
      (State.writeLoc_cmpr _ _ _)
  · cases e.symm.trans hstep
    exact hpresented

/-! ### Operand writes -/

/-- The list of edges and the output are at no location. -/
theorem readLoc_with_bus_rdata (s : State) (b : List Edge) (r : Byte) (l : Loc) :
    ({ s with bus := b, rdata := r } : State).readLoc l = s.readLoc l := by cases l <;> rfl

/-- A step on a write outside the command port, seen through the reads after it. -/
theorem step_of_operand_write {s : State} {a : Addr} {d : Byte} {rest : List Edge} (h : s.bus = Edge.write a d :: rest)
    (ha : a ≠ cmdAddr) : ∃ t, step s = .next t ∧ t.bus = rest ∧ t.rdata = 0 ∧
      ∀ l, t.readLoc l = if l = locOf a ∧ (locOf a).stores = true then d else s.readLoc l := by
  refine ⟨({ s with bus := rest, rdata := 0 } : State).writeLoc (locOf a) d,
    (step_of_write h rfl rfl rfl).trans (memWrite_of_ne_cmdAddr ha d _), State.writeLoc_bus _ _ _,
    State.writeLoc_rdata _ _ _, fun l => ?_⟩
  rw [readLoc_writeLoc, readLoc_with_bus_rdata]

/-- Settles O16: either order reads the same everywhere, since no location that stores stands at two addresses. -/
theorem operandWritesCommute : Obligations.OperandWritesCommute := by
  intro s a b c d hab ha hb
  obtain ⟨t₁, hstep₁, hbus₁, -, hread₁⟩ :=
    step_of_operand_write (s := { s with bus := [Edge.write a c, Edge.write b d] }) rfl ha
  obtain ⟨u, hstep, hbus, hrdata, hread⟩ := step_of_operand_write hbus₁ hb
  obtain ⟨t₂, hstep₂, hbus₂, -, hread₂⟩ :=
    step_of_operand_write (s := { s with bus := [Edge.write b d, Edge.write a c] }) rfl hb
  obtain ⟨u', hstep', hbus', hrdata', hread'⟩ := step_of_operand_write hbus₂ ha
  have hsame : u = u' := by
    refine eq_of_readLoc_eq (fun l => ?_) (hbus.trans hbus'.symm) (hrdata.trans hrdata'.symm)
    have hnotboth : ¬((l = locOf b ∧ (locOf b).stores = true) ∧ l = locOf a ∧ (locOf a).stores = true) := by
      rintro ⟨⟨hlb, -⟩, hla, hstores⟩
      exact hab ((locOf_eq_iff_of_stores hstores b).mp (hlb.symm.trans hla)).symm
    rw [hread, hread₁, hread', hread₂]
    split_ifs with hlb hla hla
    · exact absurd ⟨hlb, hla⟩ hnotboth
    all_goals rfl
  exact ⟨t₁, t₂, u, hstep₁, hstep, hstep₂, hstep'.trans (congrArg _ hsame.symm)⟩

/-! ### Loading a register -/

theorem run_succ {s t : State} (h : step s = .next t) (k : Nat) :
    Sys2Proof.core.run (k + 1) s = Sys2Proof.core.run k t := by
  have hcore : Sys2Proof.core.step s = .next t := h
  simp only [Host.Core.run, hcore]

/-- A run over operand writes ends in `u` (no edge left, `0x00` on the output) when the locations written read in `u` as
the bytes written and all others as before. -/
theorem run_operand_writes (u : State) (ws : List (Addr × Byte)) {s : State}
    (hbus : s.bus = ws.map fun p => Edge.write p.1 p.2) (hrdata : ws = [] → s.rdata = 0)
    (hwritten : ∀ p ∈ ws, (locOf p.1).stores = true ∧ u.readLoc (locOf p.1) = p.2)
    (hkept : ∀ l, (∀ p ∈ ws, l ≠ locOf p.1) → s.readLoc l = u.readLoc l) :
    Sys2Proof.core.run ws.length s = .next { u with bus := [], rdata := 0 } := by
  induction ws generalizing s with
  | nil =>
    have hs : s = { u with bus := [], rdata := 0 } := eq_of_readLoc_eq
      (fun l => (hkept l nofun).trans (readLoc_with_bus_rdata u _ _ l).symm) hbus (hrdata rfl)
    exact congrArg _ hs
  | cons p ws ih =>
    obtain ⟨hstores, hvalue⟩ := hwritten p List.mem_cons_self
    have hcmd : p.1 ≠ cmdAddr := fun e => by rw [e] at hstores; exact absurd hstores (by decide)
    obtain ⟨t, hstep, hbus', hrdata', hread⟩ := step_of_operand_write hbus hcmd
    rw [List.length_cons, run_succ hstep]
    refine ih hbus' (fun _ => hrdata') (fun q hq => hwritten q (List.mem_cons_of_mem p hq)) fun l hl => ?_
    rw [hread]
    split_ifs with hp
    · rw [hp.1, hvalue]
    · exact hkept l (List.forall_mem_cons.mpr ⟨fun e => hp ⟨e, hstores⟩, hl⟩)

/-- Storing the `k` bytes of `x` at a register's addresses puts `x` into the register: `u` is `s` with that register
replaced, `reg` the locations of its bytes. -/
theorem run_storeBytes {n k base : Nat} (hk : 0 < k) {x : BitVec n} {reg : Fin k → Loc} {s u : State}
    (hmap : ∀ i : Fin k, locOf (BitVec.ofNat 7 (base + i)) = reg i) (hstores : ∀ i, (reg i).stores = true)
    (hbyte : ∀ i, u.readLoc (reg i) = byteOf x i) (hkept : ∀ l, (∀ i, l ≠ reg i) → s.readLoc l = u.readLoc l) :
    Sys2Proof.core.run k { s with bus := storeBytes base k x } = .next { u with bus := [], rdata := 0 } := by
  have hrun := run_operand_writes u ((List.range k).map fun i => (BitVec.ofNat 7 (base + i), byteOf x i))
    (s := { s with bus := storeBytes base k x }) (by rw [List.map_map]; rfl)
    (fun h => absurd h (by simpa using hk.ne')) (fun p hp => ?_) (fun l hl => ?_)
  · rwa [List.length_map, List.length_range] at hrun
  · obtain ⟨i, hi, rfl⟩ := List.mem_map.mp hp
    have hloc := hmap ⟨i, List.mem_range.mp hi⟩
    exact ⟨hloc ▸ hstores _, hloc ▸ hbyte _⟩
  · refine (readLoc_with_bus_rdata s _ _ l).trans (hkept l fun i => ?_)
    rw [← hmap i]
    exact hl _ (List.mem_map.mpr ⟨i, List.mem_range.mpr i.isLt, rfl⟩)

/-- Settles O17: each line stores the bytes of one number at the addresses of one register. -/
theorem loadingARegisterByteByByte : Obligations.LoadingARegisterByteByByte := by
  intro s
  refine ⟨fun h _ => run_storeBytes (u := { s with v := BitVec.ofNat 128 h }) (reg := .v) (by decide) (by decide)
      (fun _ => rfl) (fun _ => rfl) ?_,
    fun h _ => run_storeBytes (u := { s with w := BitVec.ofNat 128 h }) (reg := .w) (by decide) (by decide)
      (fun _ => rfl) (fun _ => rfl) ?_,
    fun n _ => run_storeBytes (u := { s with tsw := BitVec.ofInt 64 n }) (reg := .tsw) (by decide) (by decide)
      (fun _ => rfl) (fun _ => rfl) ?_,
    fun n _ => run_storeBytes (u := { s with psc := BitVec.ofInt 32 n }) (reg := .psc) (by decide) (by decide)
      (fun _ => rfl) (fun _ => rfl) ?_,
    fun n _ => run_storeBytes (u := { s with ssc := BitVec.ofNat 16 n }) (reg := .ssc) (by decide) (by decide)
      (fun _ => rfl) (fun _ => rfl) ?_,
    fun h _ => run_storeBytes (u := { s with en := BitVec.ofNat 64 h }) (reg := .en) (by decide) (by decide)
      (fun _ => rfl) (fun _ => rfl) ?_⟩
  all_goals
    intro l hl
    cases l <;> first | rfl | exact absurd rfl (hl _)

end Sys2Proof.Machine
end
